-- ==== Sys2Proof/Word.lean ====
section
/-! DEFINITION. The machine's stored words: a command word, a pixel sample, a coefficient.
Everything else the spec computes with is a mathematical integer (spec/00_scope.md R7). -/

namespace Sys2Proof

/-- A command word, `CMD_W` = 64 bits (spec/30_encoding.md R60). -/
abbrev Word := BitVec 64

/-- One cell of `PIX`: an unsigned 8-bit sample, `SAMPLE_W` (spec/20_memory.md R35). -/
abbrev Sample := BitVec 8

/-- One cell of `COEF`: a signed 16-bit two's complement value, `COEF_W` (spec/20_memory.md R36, R39). -/
abbrev Coef := BitVec 16

end Sys2Proof
end

