-- ==== Sys2Proof/Syntax.lean ====
section
/-! DEFINITION. The ten commands, one constructor per row of spec/opcode_table.json
(spec/30_encoding.md R64, R66, R70). -/

namespace Sys2Proof

/-- A command term. Operands are the mathematical integers of R63: `a` and `b` are the fields `A` and `B`
(16 bits, zero-extended), `thresh` the field `THRESH` (8 bits). Widths are checked by `Instr.wf`. -/
inductive Instr where
  /-- `INIT` (R150). -/
  | init
  /-- `TRANSFORM(A, B)` (R92): `a` a `COEF` word address, `b` a `PIX` address. -/
  | transform (a b : Nat)
  /-- `TRANSFORM2(A, B)` (R93): the two-block form. -/
  | transform2 (a b : Nat)
  /-- `TRANSFORM_DC(A, B)` (R94). -/
  | transformDc (a b : Nat)
  /-- `TRANSFORM_AC3(A, B)` (R96). -/
  | transformAc3 (a b : Nat)
  /-- `TRANSFORM_WHT(A, B)` (R116): both operands are `COEF` word addresses. -/
  | transformWht (a b : Nat)
  /-- `SIMPLE_VFILTER16(B, THRESH)` (R132). -/
  | simpleVfilter16 (b thresh : Nat)
  /-- `SIMPLE_HFILTER16(B, THRESH)` (R133). -/
  | simpleHfilter16 (b thresh : Nat)
  /-- `SIMPLE_VFILTER16I(B, THRESH)` (R134). -/
  | simpleVfilter16i (b thresh : Nat)
  /-- `SIMPLE_HFILTER16I(B, THRESH)` (R135). -/
  | simpleHfilter16i (b thresh : Nat)
  deriving DecidableEq, Repr

/-- The row of spec/opcode_table.json a command belongs to, by its mnemonic. -/
def Instr.mnemonic : Instr → String
  | .init => "INIT"
  | .transform _ _ => "TRANSFORM"
  | .transform2 _ _ => "TRANSFORM2"
  | .transformDc _ _ => "TRANSFORM_DC"
  | .transformAc3 _ _ => "TRANSFORM_AC3"
  | .transformWht _ _ => "TRANSFORM_WHT"
  | .simpleVfilter16 _ _ => "SIMPLE_VFILTER16"
  | .simpleHfilter16 _ _ => "SIMPLE_HFILTER16"
  | .simpleVfilter16i _ _ => "SIMPLE_VFILTER16I"
  | .simpleHfilter16i _ _ => "SIMPLE_HFILTER16I"

end Sys2Proof
end

