-- ==== Sys2Proof/WellFormed.lean ====
section
/-! DEFINITION. A command term whose fields fit their widths (spec/30_encoding.md R61, R70). -/

namespace Sys2Proof

/-- The value fits an unsigned field of `width` bits. -/
abbrev fits (width v : Nat) : Prop := v < 2 ^ width

/-- Every operand fits its field: `A` and `B` 16 bits, `THRESH` 8 bits (R61, R63). -/
def Instr.wf : Instr → Bool
  | .init => true
  | .transform a b => decide (fits 16 a) && decide (fits 16 b)
  | .transform2 a b => decide (fits 16 a) && decide (fits 16 b)
  | .transformDc a b => decide (fits 16 a) && decide (fits 16 b)
  | .transformAc3 a b => decide (fits 16 a) && decide (fits 16 b)
  | .transformWht a b => decide (fits 16 a) && decide (fits 16 b)
  | .simpleVfilter16 b t => decide (fits 16 b) && decide (fits 8 t)
  | .simpleHfilter16 b t => decide (fits 16 b) && decide (fits 8 t)
  | .simpleVfilter16i b t => decide (fits 16 b) && decide (fits 8 t)
  | .simpleHfilter16i b t => decide (fits 16 b) && decide (fits 8 t)

end Sys2Proof
end

