-- ==== Sys2Proof/Decode.lean ====
section
/-! DEFINITION. The decoder, total on 64-bit words, and the encoder (spec/30_encoding.md R60 to R70). -/

namespace Sys2Proof

/-- `cmd[lo+width-1 : lo]` as an unsigned integer (spec/00_scope.md R9). -/
def field (w : Word) (lo width : Nat) : Nat := w.toNat / 2 ^ lo % 2 ^ width

/-- Why a word is no command (R65, R67). -/
inductive Illegal where
  /-- `RSV0` or `RSV1` is not zero. -/
  | reservedField
  /-- `OP` is not one of the nine opcode values of R64. -/
  | unknownOpcode
  /-- A field the format does not use is not zero. -/
  | unusedField
  deriving DecidableEq, Repr

/-- What a word decodes to: a command, or illegal for a named reason. -/
inductive Decoded where
  | command (i : Instr)
  | illegal (r : Illegal)
  deriving DecidableEq, Repr

/-- A command if the fields its format leaves unused are zero, else illegal (R65). -/
def commandIf (unusedZero : Prop) [Decidable unusedZero] (i : Instr) : Decoded :=
  if unusedZero then .command i else .illegal .unusedField

/-- The case split of R70 on the fields of a word whose reserved fields are zero. -/
def decodeFields (op two t a b : Nat) : Decoded :=
  if op = 0x01 then commandIf (two = 0 ∧ t = 0 ∧ a = 0 ∧ b = 0) .init
  else if op = 0x10 then
    (if two = 0 then commandIf (t = 0) (.transform a b) else commandIf (t = 0) (.transform2 a b))
  else if op = 0x11 then commandIf (two = 0 ∧ t = 0) (.transformDc a b)
  else if op = 0x12 then commandIf (two = 0 ∧ t = 0) (.transformAc3 a b)
  else if op = 0x13 then commandIf (two = 0 ∧ t = 0) (.transformWht a b)
  else if op = 0x20 then commandIf (two = 0 ∧ a = 0) (.simpleVfilter16 b t)
  else if op = 0x21 then commandIf (two = 0 ∧ a = 0) (.simpleHfilter16 b t)
  else if op = 0x22 then commandIf (two = 0 ∧ a = 0) (.simpleVfilter16i b t)
  else if op = 0x23 then commandIf (two = 0 ∧ a = 0) (.simpleHfilter16i b t)
  else .illegal .unknownOpcode

/-- The decoder of R70. -/
def decode (w : Word) : Decoded :=
  if field w 9 7 ≠ 0 ∨ field w 24 8 ≠ 0 then .illegal .reservedField
  else decodeFields (field w 0 8) (field w 8 1) (field w 16 8) (field w 32 16) (field w 48 16)

/-- A word from its fields, the reserved ones zero (the layout of R61). -/
def pack (op two t a b : Nat) : Word :=
  BitVec.ofNat 64 (op + two * 2 ^ 8 + t * 2 ^ 16 + a * 2 ^ 32 + b * 2 ^ 48)

/-- The word of a well-formed command (R61, R62, R64). -/
def encode : Instr → Word
  | .init => pack 0x01 0 0 0 0
  | .transform a b => pack 0x10 0 0 a b
  | .transform2 a b => pack 0x10 1 0 a b
  | .transformDc a b => pack 0x11 0 0 a b
  | .transformAc3 a b => pack 0x12 0 0 a b
  | .transformWht a b => pack 0x13 0 0 a b
  | .simpleVfilter16 b t => pack 0x20 0 t 0 b
  | .simpleHfilter16 b t => pack 0x21 0 t 0 b
  | .simpleVfilter16i b t => pack 0x22 0 t 0 b
  | .simpleHfilter16i b t => pack 0x23 0 t 0 b

/-- One row of the match and mask table of R66. -/
structure OpRow where
  mnemonic : String
  pattern : Word
  mask : Word
  deriving DecidableEq, Repr

/-- The table of R66, as in spec/opcode_table.json. -/
def opcodeRows : List OpRow :=
  [ { mnemonic := "INIT", pattern := 0x0000000000000001, mask := 0xFFFFFFFFFFFFFFFF },
    { mnemonic := "TRANSFORM", pattern := 0x0000000000000010, mask := 0x00000000FFFFFFFF },
    { mnemonic := "TRANSFORM2", pattern := 0x0000000000000110, mask := 0x00000000FFFFFFFF },
    { mnemonic := "TRANSFORM_DC", pattern := 0x0000000000000011, mask := 0x00000000FFFFFFFF },
    { mnemonic := "TRANSFORM_AC3", pattern := 0x0000000000000012, mask := 0x00000000FFFFFFFF },
    { mnemonic := "TRANSFORM_WHT", pattern := 0x0000000000000013, mask := 0x00000000FFFFFFFF },
    { mnemonic := "SIMPLE_VFILTER16", pattern := 0x0000000000000020, mask := 0x0000FFFFFF00FFFF },
    { mnemonic := "SIMPLE_HFILTER16", pattern := 0x0000000000000021, mask := 0x0000FFFFFF00FFFF },
    { mnemonic := "SIMPLE_VFILTER16I", pattern := 0x0000000000000022, mask := 0x0000FFFFFF00FFFF },
    { mnemonic := "SIMPLE_HFILTER16I", pattern := 0x0000000000000023, mask := 0x0000FFFFFF00FFFF } ]

/-- The word is in the row: `(cmd AND mask) = match` (R66). -/
def OpRow.covers (row : OpRow) (w : Word) : Bool := (w &&& row.mask) == row.pattern

/-- The word whose low `nbits` bits are those of `w` and whose other bits are zero; none when that needs more
than the 64 bits of a command word. -/
def wordOfBits (nbits w : Nat) : Option Word :=
  if w % 2 ^ nbits < 2 ^ 64 then some (BitVec.ofNat 64 (w % 2 ^ nbits)) else none

/-- The command the decoder reads from an opcode-table row's bits. A command word has no byte order
(spec/20_memory.md R39, R53): its bits are the table's bits. -/
def decodeTableWord (nbits w : Nat) : Option Instr :=
  match wordOfBits nbits w with
  | none => none
  | some cmd =>
    match decode cmd with
    | .command i => some i
    | .illegal _ => none

end Sys2Proof
end

