-- ==== Sys2Proof/Machine/Arith.lean ====
section
/-! DEFINITION. The exact integer arithmetic of the spec (spec/00_scope.md R7, R8, R13) and the 4x4 arrays the
transforms work on. -/

namespace Sys2Proof.Machine

/-- `v >> n` = `floor(v / 2^n)` (R8). -/
def sar (v : Int) (n : Nat) : Int := v / 2 ^ n

/-- `clamp(v, lo, hi)` (R8). -/
def clamp (lo hi v : Int) : Int := if v < lo then lo else if hi < v then hi else v

/-- `sat_u8` (R8). -/
def satU8 (v : Int) : Int := clamp 0 255 v

/-- `sat_s8` (R8). -/
def satS8 (v : Int) : Int := clamp (-128) 127 v

/-- `sat_s16` (R8). -/
def satS16 (v : Int) : Int := clamp (-32768) 32767 v

/-- `MUL1` (R13), `K1` = 20091. -/
def mul1 (x : Int) : Int := x + sar (x * 20091) 16

/-- `MUL2` (R13), `K2` = 35468. -/
def mul2 (x : Int) : Int := sar (x * 35468) 16

/-- The 8-bit pattern of a sample, saturated as every write to `PIX` is (spec/20_memory.md R35). -/
def sampleOf (v : Int) : Sample := BitVec.ofInt 8 (satU8 v)

/-- The 16-bit pattern of a value, saturated (spec/42_inverse_wht.md R114). -/
def coefOf (v : Int) : Coef := BitVec.ofInt 16 (satS16 v)

/-- Residual accumulation: `sat_u8(P + res)` (spec/41_inverse_transform.md R90). -/
def accumulate (p : Sample) (res : Int) : Sample := sampleOf (p.toNat + res)

/-- Four integers: one row or one column of a 4x4 array. -/
structure Quad where
  x0 : Int
  x1 : Int
  x2 : Int
  x3 : Int
  deriving DecidableEq, Repr

/-- A 4x4 array of integers by rows, index `(r, k)` being row `r`, column `k` (R12). -/
structure Block where
  r0 : Quad
  r1 : Quad
  r2 : Quad
  r3 : Quad
  deriving DecidableEq, Repr

/-- Element `k` of a quad, `k` in 0..3. -/
def Quad.get (q : Quad) (k : Nat) : Int :=
  match k with
  | 0 => q.x0
  | 1 => q.x1
  | 2 => q.x2
  | _ => q.x3

/-- Row `r` of a block, `r` in 0..3. -/
def Block.row (b : Block) (r : Nat) : Quad :=
  match r with
  | 0 => b.r0
  | 1 => b.r1
  | 2 => b.r2
  | _ => b.r3

/-- Element `(r, k)` of a block. -/
def Block.get (b : Block) (r k : Nat) : Int := (b.row r).get k

/-- The block whose element `(r, k)` is `f r k`. -/
def Block.ofFn (f : Nat → Nat → Int) : Block :=
  { r0 := { x0 := f 0 0, x1 := f 0 1, x2 := f 0 2, x3 := f 0 3 }
    r1 := { x0 := f 1 0, x1 := f 1 1, x2 := f 1 2, x3 := f 1 3 }
    r2 := { x0 := f 2 0, x1 := f 2 1, x2 := f 2 2, x3 := f 2 3 }
    r3 := { x0 := f 3 0, x1 := f 3 1, x2 := f 3 2, x3 := f 3 3 } }

/-- Rows become columns. -/
def Block.transpose (b : Block) : Block :=
  { r0 := { x0 := b.r0.x0, x1 := b.r1.x0, x2 := b.r2.x0, x3 := b.r3.x0 }
    r1 := { x0 := b.r0.x1, x1 := b.r1.x1, x2 := b.r2.x1, x3 := b.r3.x1 }
    r2 := { x0 := b.r0.x2, x1 := b.r1.x2, x2 := b.r2.x2, x3 := b.r3.x2 }
    r3 := { x0 := b.r0.x3, x1 := b.r1.x3, x2 := b.r2.x3, x3 := b.r3.x3 } }

/-- One pass over the rows. -/
def Block.onRows (f : Quad → Quad) (b : Block) : Block :=
  { r0 := f b.r0, r1 := f b.r1, r2 := f b.r2, r3 := f b.r3 }

/-- One pass over the columns. -/
def Block.onColumns (f : Quad → Quad) (b : Block) : Block := (b.transpose.onRows f).transpose

/-- One function on every element. -/
def Block.onCells (f : Int → Int) (b : Block) : Block :=
  b.onRows fun q => { x0 := f q.x0, x1 := f q.x1, x2 := f q.x2, x3 := f q.x3 }

end Sys2Proof.Machine
end

