-- ==== Sys2Proof/Config.lean ====
section
/-! DEFINITION. The OPEN parameters of the built core (spec/00_scope.md R6, spec/92_eei_decisions.md D3, D4).
They are fixed properties of the hardware, not something the host programs (spec/70_reset_and_hazards.md R178). -/

namespace Sys2Proof

/-- The configuration record of R6. `N_INST`, the fourth open parameter, is the number of core instances that
`Machine.State` holds (one plus the two lists beside it), so it is not repeated here. -/
structure Config where
  /-- `BPS`: row stride of the pixel buffer in bytes. -/
  bps : Nat
  /-- `PIX_SIZE`: number of byte cells of `PIX`. -/
  pixSize : Nat
  /-- `COEF_SIZE`: number of 16-bit cells of `COEF`. -/
  coefSize : Nat
  deriving DecidableEq, Repr

/-- The constraints R6 puts on the open parameters. -/
abbrev Config.ok (c : Config) : Prop :=
  16 ≤ c.bps ∧ (1 ≤ c.pixSize ∧ c.pixSize ≤ 65536) ∧ (1 ≤ c.coefSize ∧ c.coefSize ≤ 65536)

/-- The configuration of spec/95_test_vectors.md: `BPS = 32` (PRESUMED, log entry 1), `PIX_SIZE = 1024`,
`COEF_SIZE = 512` (DESIGN CHOICE, log entry 1). Only `State.reset` uses it; every statement holds for every
configuration. -/
def Config.testVectors : Config := { bps := 32, pixSize := 1024, coefSize := 512 }

end Sys2Proof
end

