-- ==== Sys2Proof/Machine/State.lean ====
section
/-! DEFINITION. The machine's state, plain data, and its value after reset
(spec/10_state.md R20 to R29, spec/70_reset_and_hazards.md R175, R176). -/

namespace Sys2Proof.Machine

/-- The values of the `FAULT` latch (R23, R155). -/
inductive FaultClass where
  | none
  | illegalCommand
  | notInitialized
  | bounds
  | sparsity
  | race
  deriving DecidableEq, Repr

/-- An address space as a list of (address, cell) pairs, cells of `n` bits: addresses strictly rising, and no
listed cell equal to what an unlisted address reads as (log entry 2). `Mem 8` is a list of `Host.Cell`. -/
abbrev Mem (n : Nat) := List (Nat × BitVec n)

/-- The two address spaces (spec/20_memory.md R35 to R37). -/
inductive Space where
  | pix
  | coef
  deriving DecidableEq, Repr

/-- How another agent touches a cell. -/
inductive AccessKind where
  | read
  | write
  deriving DecidableEq, Repr

/-- One access that another agent (the host, or another core) makes while a command executes
(spec/20_memory.md R49, R50). It says where and how, for the check of R161, and carries no value: a write that is
noted is not performed (DESIGN CHOICE, log entry 8). -/
structure Access where
  space : Space
  addr : Nat
  kind : AccessKind
  deriving DecidableEq, Repr

/-- What the host can do (spec/70_reset_and_hazards.md R179). -/
inductive HostAction where
  /-- Present a command word to core number `core`; `during` lists what the other agents access while it
  executes. Those accesses are checked and not performed (DESIGN CHOICE, log entry 8): a write outside the command's
  footprint, which R49 allows, stands in the host's list as a `writePix` or `writeCoef` of its own. -/
  | command (core : Nat) (word : Word) (during : List Access)
  /-- Write one pixel cell while the cores are idle. -/
  | writePix (a : Nat) (v : Sample)
  /-- Write one coefficient cell while the cores are idle. -/
  | writeCoef (w : Nat) (v : Coef)
  /-- Apply reset; the lists say what the two memories hold afterwards, which R176 leaves unspecified. -/
  | reset (pix : Mem 8) (coef : Mem 16)
  deriving DecidableEq, Repr

/-- The private state of one core (spec/60_exceptions.md R170). -/
structure CoreState where
  initDone : Bool
  fault : FaultClass
  deriving DecidableEq, Repr

/-- Why the machine stops with a fault. No meaning of an instruction does: the spec's own fault classes are
values of the `FAULT` latch, reached by a next state (R159). -/
inductive Fault where
  /-- The host names a cell outside its address space. Raised by `State.perform`. Safe: the spec has no
  such cell (R35, R36), and the model stops. -/
  | noSuchCell
  /-- The host names a core that does not exist. Raised by `State.perform`. Safe: the model stops. -/
  | noSuchCore
  deriving DecidableEq, Repr

/-- Why the model has no meaning for an instruction. -/
inductive Refusal where
  /-- Raised by an arm of `exec` for an instruction not modelled yet; no arm does. Safe. -/
  | notModelled (mnemonic : String)
  deriving DecidableEq, Repr

/-- The state record of R29 (`initDone`, `fault`, `pix`, `coef`), for the core that executes, with what R29 and
R179 call the parameters of the run (`cfg`, `host`), the other cores of R170 and the accesses R161 checks. -/
structure State where
  /-- The configuration, a parameter of the step relation (R6, R29). No step changes it. -/
  cfg : Config
  /-- `INIT_DONE` (R22). -/
  initDone : Bool
  /-- `FAULT` (R23). -/
  fault : FaultClass
  /-- The cores numbered below the current one (R170). -/
  lower : List CoreState
  /-- The cores numbered above the current one (R170). -/
  higher : List CoreState
  /-- `PIX` (R27, R35). -/
  pix : Mem 8
  /-- `COEF` (R27, R36). -/
  coef : Mem 16
  /-- What the other agents access while the current command executes (R49, R50, R161). -/
  contention : List Access
  /-- What the host has still to do, in order (R21, R179). -/
  host : List HostAction
  deriving DecidableEq, Repr

/-- The state after reset of a core built with configuration `cfg`, the only core, with given memory contents
and nothing issued (R28, R175, R176). -/
def State.resetOf (cfg : Config) (pix : Mem 8) (coef : Mem 16) : State :=
  { cfg := cfg, initDone := false, fault := .none, lower := [], higher := [], pix := pix, coef := coef,
    contention := [], host := [] }

/-- The machine right after reset: `INIT_DONE = 0`, `FAULT = NONE` (R28, R175); one core, the default `N_INST`
(R6); the configuration of log entry 1; memory lists nothing (log entry 2). -/
def State.reset : State := State.resetOf Config.testVectors [] []

end Sys2Proof.Machine
end

