-- ==== Sys2Proof/Machine/Ops.lean ====
section
/-! DEFINITION. The named operations over the memories, the latch and the cores. -/

namespace Sys2Proof.Machine

/-! ## Memory (spec/00_scope.md R10, spec/20_memory.md R35, R36) -/

/-- What an address that memory does not list reads as: zero (DESIGN CHOICE, log entry 2). -/
def Mem.unlisted (n : Nat) : BitVec n := 0

/-- One cell. -/
def Mem.read {n : Nat} (m : Mem n) (a : Nat) : BitVec n :=
  match m with
  | [] => Mem.unlisted n
  | (b, u) :: rest => if a = b then u else Mem.read rest a

/-- The list that starts with the cell at `a`, unless `v` is what an unlisted address reads as. -/
def Mem.consCell {n : Nat} (a : Nat) (v : BitVec n) (m : Mem n) : Mem n :=
  if v = Mem.unlisted n then m else (a, v) :: m

/-- Write one cell, keeping the canonical form. -/
def Mem.write {n : Nat} (m : Mem n) (a : Nat) (v : BitVec n) : Mem n :=
  match m with
  | [] => Mem.consCell a v []
  | (b, u) :: rest =>
    if a < b then Mem.consCell a v ((b, u) :: rest)
    else if a = b then Mem.consCell a v rest
    else (b, u) :: Mem.write rest a v

/-- Write a list of cells, the first one first. -/
def Mem.writeAll {n : Nat} (m : Mem n) (cells : List (Nat × BitVec n)) : Mem n :=
  cells.foldl (fun m c => m.write c.1 c.2) m

/-- The canonical form: addresses strictly rising, no listed cell equal to the unlisted value. -/
abbrev Mem.wf {n : Nat} (m : Mem n) : Prop :=
  m.Pairwise (fun c d => c.1 < d.1) ∧ ∀ c ∈ m, c.2 ≠ Mem.unlisted n

/-- Every listed address is below `size`. -/
abbrev Mem.within {n : Nat} (m : Mem n) (size : Nat) : Prop := ∀ c ∈ m, c.1 < size

/-- The memory of `size` cells whose contents a list names; what the list says of other addresses is void. -/
def Mem.ofContents {n : Nat} (size : Nat) (cells : List (Nat × BitVec n)) : Mem n :=
  Mem.writeAll [] (cells.filter fun c => decide (c.1 < size))

/-- `PIX[a]` (R10), as the stored pattern. -/
def State.pixel (s : State) (a : Nat) : Sample := s.pix.read a

/-- `COEF[w]` (R10): the two's complement reading of the cell. -/
def State.coefficient (s : State) (w : Nat) : Int := (s.coef.read w).toInt

/-- Write pixel cells, all results having been computed before (spec/20_memory.md R47). -/
def State.storePix (s : State) (cells : List (Nat × Sample)) : State := { s with pix := s.pix.writeAll cells }

/-- Write coefficient cells, all results having been computed before (spec/20_memory.md R47). -/
def State.storeCoef (s : State) (cells : List (Nat × Coef)) : State := { s with coef := s.coef.writeAll cells }

/-! ## The latch, initialisation, reset -/

/-- The number a fault class has in the latch (spec/60_exceptions.md R155). -/
def FaultClass.code : FaultClass → Nat
  | .none => 0
  | .illegalCommand => 1
  | .notInitialized => 2
  | .bounds => 3
  | .sparsity => 4
  | .race => 5

/-- Taking a fault: the class is latched and nothing else happens; a latch that is set keeps its first value
(R23, R159, R160). There is no handler, no saved state and no return (R160). -/
def State.raise (s : State) (c : FaultClass) : State :=
  if s.fault = .none then { s with fault := c } else s

/-- `INIT_DONE <- 1` (spec/44_dispatch_init.md R150). -/
def State.setInitDone (s : State) : State := { s with initDone := true }

/-- A core after reset (spec/70_reset_and_hazards.md R175). -/
def CoreState.reset : CoreState := { initDone := false, fault := .none }

/-- Reset as a transition, the only way out of a fault (R160, R175): every core is reset, nothing is in progress,
and the memories hold what `pix` and `coef` say, which R176 leaves unspecified. -/
def State.applyReset (s : State) (pix : Mem 8) (coef : Mem 16) : State :=
  { s with
    initDone := CoreState.reset.initDone
    fault := CoreState.reset.fault
    lower := s.lower.map fun _ => CoreState.reset
    higher := s.higher.map fun _ => CoreState.reset
    pix := Mem.ofContents s.cfg.pixSize pix
    coef := Mem.ofContents s.cfg.coefSize coef
    contention := [] }

/-! ## The cores (spec/60_exceptions.md R170) -/

/-- All cores in their order, the current one included. -/
def State.cores (s : State) : List CoreState :=
  s.lower ++ { initDone := s.initDone, fault := s.fault } :: s.higher

/-- The number of the current core. -/
def State.current (s : State) : Nat := s.lower.length

/-- Make core `k` the current one; none when there is no such core. -/
def State.select (s : State) (k : Nat) : Option State :=
  match s.cores[k]? with
  | none => none
  | some c =>
    some { s with
      lower := s.cores.take k
      initDone := c.initDone
      fault := c.fault
      higher := s.cores.drop (k + 1) }

end Sys2Proof.Machine
end

