-- ==== Sys2Proof/Machine/Operands.lean ====
section
/-! DEFINITION. Operands: cell addresses, the exact footprints of the ten commands, and how a command reads its
operand block (spec/20_memory.md R43 to R45, spec/30_encoding.md R62, R63). -/

namespace Sys2Proof.Machine

/-- The pixel address of row `r`, column `k` of the region whose first pixel is `b` (spec/00_scope.md R12). -/
def blockAddr (bps b r k : Nat) : Nat := b + r * bps + k

/-- The address of the `q0` sample of position `i` of the edge at `e` (spec/43_loop_filter.md R125). -/
def edgeAddr (e ps i : Nat) : Nat := e + i * ps

/-- The `COEF` address of WHT output slot `n` (spec/42_inverse_wht.md R115). -/
def slotAddr (b n : Nat) : Nat := b + 16 * n

/-- The read and write footprints of a command, as mathematical integers: nothing wraps (R43). -/
structure Footprint where
  coefRead : List Int
  coefWrite : List Int
  pixRead : List Int
  pixWrite : List Int
  deriving DecidableEq, Repr

/-- `base, base + 1, ..., base + n - 1`. -/
def run (base : Int) (n : Nat) : List Int := (List.range n).map fun m : Nat => base + (m : Int)

/-- `base + u * su + v * sv` for `u` in `us` and `v` in `vs`. -/
def grid (base : Int) (us : List Int) (su : Int) (vs : List Int) (sv : Int) : List Int :=
  us.flatMap fun u => vs.map fun v => base + u * su + v * sv

/-- A region of 4 rows and `cols` columns. -/
def region (bps b cols : Nat) : List Int := grid b (run 0 4) bps (run 0 cols) 1

/-- The sample offsets an edge reads, in sample steps from `q0` (R125). -/
def readTaps : List Int := [-2, -1, 0, 1]

/-- The sample offsets an edge writes (R131). -/
def writeTaps : List Int := [-1, 0]

/-- The three inner edges of a macroblock, in sample steps from its first pixel (spec/43_loop_filter.md R140). -/
def innerEdges : List Nat := [4, 8, 12]

/-- The cells of the edge at `e` that `taps` names. -/
def edgeCellsAt (e ps ss : Nat) (taps : List Int) : List Int := grid e (run 0 16) ps taps ss

/-- The cells of the three inner edges that `taps` names. -/
def innerCellsAt (b ps ss : Nat) (taps : List Int) : List Int :=
  innerEdges.flatMap fun e => edgeCellsAt (b + e * ss) ps ss taps

/-- A transform's footprint: `blocks` coefficient blocks read, `blocks` side-by-side 4x4 regions read and
written (R44). -/
def transformFootprint (bps blocks a b : Nat) : Footprint :=
  { coefRead := run a (16 * blocks), coefWrite := [],
    pixRead := region bps b (4 * blocks), pixWrite := region bps b (4 * blocks) }

/-- A single-edge filter's footprint (R44). -/
def edgeFootprint (e ps ss : Nat) : Footprint :=
  { coefRead := [], coefWrite := [],
    pixRead := edgeCellsAt e ps ss readTaps, pixWrite := edgeCellsAt e ps ss writeTaps }

/-- A three-edge filter's footprint (R44). -/
def innerFootprint (b ps ss : Nat) : Footprint :=
  { coefRead := [], coefWrite := [],
    pixRead := innerCellsAt b ps ss readTaps, pixWrite := innerCellsAt b ps ss writeTaps }

/-- The footprint of each command: the table of R44. -/
def footprint (bps : Nat) : Instr → Footprint
  | .init => { coefRead := [], coefWrite := [], pixRead := [], pixWrite := [] }
  | .transform a b => transformFootprint bps 1 a b
  | .transform2 a b => transformFootprint bps 2 a b
  | .transformDc a b => transformFootprint bps 1 a b
  | .transformAc3 a b => transformFootprint bps 1 a b
  | .transformWht a b =>
    { coefRead := run a 16, coefWrite := grid b (run 0 16) 16 [0] 1, pixRead := [], pixWrite := [] }
  | .simpleVfilter16 b _ => edgeFootprint b 1 bps
  | .simpleHfilter16 b _ => edgeFootprint b bps 1
  | .simpleVfilter16i b _ => innerFootprint b 1 bps
  | .simpleHfilter16i b _ => innerFootprint b bps 1

/-- The coefficients `COEF[w .. w+15]` as a 4x4 array in raster order (spec/41_inverse_transform.md R85). -/
def State.coefBlock (s : State) (w : Nat) : Block := Block.ofFn fun r k => s.coefficient (w + (4 * r + k))

end Sys2Proof.Machine
end

