-- ==== Sys2Proof/Machine/Flags.lean ====
section
/-! DEFINITION. The core has no condition flags (spec/10_state.md R24). What a command computes into a status is
its fault class: the admission check (spec/60_exceptions.md R155 to R161). -/

namespace Sys2Proof.Machine

/-- Every address lies in a space of `size` cells. -/
def inSpace (size : Nat) (addrs : List Int) : Bool := addrs.all fun a => decide (0 ≤ a ∧ a < (size : Int))

/-- The bounds test of R158: every cell of both footprints lies in its space. -/
def inBounds (cfg : Config) (i : Instr) : Bool :=
  let f := footprint cfg.bps i
  inSpace cfg.coefSize f.coefRead && inSpace cfg.coefSize f.coefWrite &&
    inSpace cfg.pixSize f.pixRead && inSpace cfg.pixSize f.pixWrite

/-- The AC coefficients `TRANSFORM_DC` requires to be zero (R158, spec/41_inverse_transform.md R94). -/
def dcZeroIndices : List Nat := [1, 2, 3, 4, 5, 6, 7, 8, 9, 10, 11, 12, 13, 14, 15]

/-- The coefficients `TRANSFORM_AC3` requires to be zero (R158, spec/41_inverse_transform.md R96). -/
def ac3ZeroIndices : List Nat := [2, 3, 5, 6, 7, 8, 9, 10, 11, 12, 13, 14, 15]

/-- The coefficients of the block at `a` with the given indices are zero. -/
def State.zeroAt (s : State) (a : Nat) (indices : List Nat) : Bool :=
  indices.all fun m => decide (s.coefficient (a + m) = 0)

/-- The sparsity test of R158. -/
def State.sparse (s : State) : Instr → Bool
  | .transformDc a _ => s.zeroAt a dcZeroIndices
  | .transformAc3 a _ => s.zeroAt a ac3ZeroIndices
  | _ => true

/-- Another agent's access interferes with a footprint: it writes a cell the command reads or writes, or reads a
cell the command writes (spec/20_memory.md R49, R50). -/
def Footprint.interferes (f : Footprint) (x : Access) : Bool :=
  match x.space, x.kind with
  | .pix, .write => decide ((x.addr : Int) ∈ f.pixRead ++ f.pixWrite)
  | .pix, .read => decide ((x.addr : Int) ∈ f.pixWrite)
  | .coef, .write => decide ((x.addr : Int) ∈ f.coefRead ++ f.coefWrite)
  | .coef, .read => decide ((x.addr : Int) ∈ f.coefWrite)

/-- Some access made while the command executes interferes with it (R161). -/
def State.raced (s : State) (i : Instr) : Bool := s.contention.any (footprint s.cfg.bps i).interferes

/-- The class of a decoded command on a core whose latch is clear, in the order of R157 and R158; `RACE` is
outside that order and is tested last (DESIGN CHOICE, log entry 7). A command that races and fails a check latches
the check's class. -/
def State.admission (s : State) (i : Instr) : FaultClass :=
  if i = .init then .none
  else if s.initDone = false then .notInitialized
  else if inBounds s.cfg i = false then .bounds
  else if s.sparse i = false then .sparsity
  else if s.raced i then .race
  else .none

/-- One command: no effect while the latch is set (R160); a fault if it is not admitted (R158, R159); else its
own effect, whose state `done` was computed from the state before the command (R47). -/
def State.carryOut (s : State) (i : Instr) (done : State) : Host.Outcome State Fault Refusal :=
  if s.fault ≠ .none then .next s
  else if s.admission i ≠ .none then .next (s.raise (s.admission i))
  else .next done

end Sys2Proof.Machine
end

