-- ==== Sys2Proof/Machine/Init.lean ====
section
/-! DEFINITION. The initialisation command (spec/44_dispatch_init.md R150 to R154). -/

namespace Sys2Proof.Machine

/-- `INIT` (R150). -/
def execInit (s : State) : Host.Outcome State Fault Refusal := s.carryOut .init s.setInitDone

end Sys2Proof.Machine
end

