-- ==== Sys2Proof/Machine/InverseTransform.lean ====
section
/-! DEFINITION. The Inverse Transform commands (spec/41_inverse_transform.md R85 to R97). -/

namespace Sys2Proof.Machine

/-- The 4-point butterfly `BF` (R86). -/
def butterfly (x : Quad) : Quad :=
  let a := x.x0 + x.x2
  let b := x.x0 - x.x2
  let c := mul2 x.x1 - mul1 x.x3
  let d := mul1 x.x1 + mul2 x.x3
  { x0 := a + d, x1 := b + c, x2 := b - c, x3 := a - d }

/-- The first pass, over columns (R87). -/
def firstPass (c : Block) : Block := c.onColumns butterfly

/-- The second pass, over rows (R88). -/
def secondPass (t : Block) : Block := t.onRows butterfly

/-- `(o + 4) >> 3` (R89). -/
def roundResidual (o : Int) : Int := sar (o + 4) 3

/-- The residual of a coefficient block (R87 to R89). -/
def residual (c : Block) : Block := (secondPass (firstPass c)).onCells roundResidual

/-- The residual of the DC-only path: `(DC + 4) >> 3` everywhere (R94). -/
def dcResidual (dc : Int) : Block := Block.ofFn fun _ _ => roundResidual dc

/-- The residual of the sparse path from coefficients 0, 1 and 4 (R96). -/
def ac3Residual (dc c1v c4v : Int) : Block :=
  let biased := dc + 4
  let c1 := mul2 c1v
  let d1 := mul1 c1v
  let c4 := mul2 c4v
  let d4 := mul1 c4v
  let cd : Quad := { x0 := d1, x1 := c1, x2 := -c1, x3 := -d1 }
  let rw : Quad := { x0 := d4, x1 := c4, x2 := -c4, x3 := -d4 }
  Block.ofFn fun r k => sar (biased + cd.get k + rw.get r) 3

/-- The 16 new samples of the 4x4 region at `b`, with their addresses (R90). -/
def blockCells (s : State) (b : Nat) (res : Block) : List (Nat × Sample) :=
  (List.range 4).flatMap fun r => (List.range 4).map fun k =>
    (blockAddr s.cfg.bps b r k, accumulate (s.pixel (blockAddr s.cfg.bps b r k)) (res.get r k))

/-- `TRANSFORM` (R92). -/
def execTransform (a b : Nat) (s : State) : Host.Outcome State Fault Refusal :=
  s.carryOut (.transform a b) (s.storePix (blockCells s b (residual (s.coefBlock a))))

/-- `TRANSFORM2` (R93): block 0 at `A`, `B`; block 1 at `A + 16`, `B + 4`. -/
def execTransform2 (a b : Nat) (s : State) : Host.Outcome State Fault Refusal :=
  s.carryOut (.transform2 a b)
    (s.storePix (blockCells s b (residual (s.coefBlock a)) ++
      blockCells s (b + 4) (residual (s.coefBlock (a + 16)))))

/-- `TRANSFORM_DC` (R94). -/
def execTransformDc (a b : Nat) (s : State) : Host.Outcome State Fault Refusal :=
  s.carryOut (.transformDc a b) (s.storePix (blockCells s b (dcResidual (s.coefficient a))))

/-- `TRANSFORM_AC3` (R96). -/
def execTransformAc3 (a b : Nat) (s : State) : Host.Outcome State Fault Refusal :=
  s.carryOut (.transformAc3 a b)
    (s.storePix
      (blockCells s b (ac3Residual (s.coefficient a) (s.coefficient (a + 1)) (s.coefficient (a + 4)))))

end Sys2Proof.Machine
end

