-- ==== Sys2Proof/Machine/InverseWht.lean ====
section
/-! DEFINITION. The Inverse Walsh-Hadamard Transform command (spec/42_inverse_wht.md R110 to R116). -/

namespace Sys2Proof.Machine

/-- The 4-point Hadamard butterfly `HB` (R111). -/
def hadamard (x : Quad) : Quad :=
  let a0 := x.x0 + x.x3
  let a1 := x.x1 + x.x2
  let a2 := x.x1 - x.x2
  let a3 := x.x0 - x.x3
  { x0 := a0 + a1, x1 := a3 + a2, x2 := a0 - a1, x3 := a3 - a2 }

/-- Element `(i, r)` of the symmetric matrix `HM` that `HB` multiplies by (R111). -/
def hadamardMatrix (i r : Nat) : Int :=
  (Block.get
    { r0 := { x0 := 1, x1 := 1, x2 := 1, x3 := 1 }
      r1 := { x0 := 1, x1 := 1, x2 := -1, x3 := -1 }
      r2 := { x0 := 1, x1 := -1, x2 := -1, x3 := 1 }
      r3 := { x0 := 1, x1 := -1, x2 := 1, x3 := -1 } } i r)

/-- The unrounded transform `S`: rows, then columns (R112). -/
def whtSum (x : Block) : Block := (x.onRows hadamard).onColumns hadamard

/-- `(S + 3) >> 3` (R113). -/
def roundWht (v : Int) : Int := sar (v + 3) 3

/-- The 16 output slots with their values: output `(i, j)` is slot `4*i + j` (R114, R115). -/
def whtCells (b : Nat) (x : Block) : List (Nat × Coef) :=
  (List.range 4).flatMap fun i => (List.range 4).map fun j =>
    (slotAddr b (4 * i + j), coefOf (roundWht ((whtSum x).get i j)))

/-- `TRANSFORM_WHT` (R116): all inputs are read before any slot is written. -/
def execTransformWht (a b : Nat) (s : State) : Host.Outcome State Fault Refusal :=
  s.carryOut (.transformWht a b) (s.storeCoef (whtCells b (s.coefBlock a)))

end Sys2Proof.Machine
end

