-- ==== Sys2Proof/Machine/LoopFilter.lean ====
section
/-! DEFINITION. The Loop Filter commands (spec/43_loop_filter.md R125 to R135). -/

namespace Sys2Proof.Machine

/-- `u2` of R126, saturating at 255 twice. -/
def edgeActivity (p1 p0 q0 q1 : Sample) : Int :=
  let u1 := min 255 (2 * |(p0.toNat : Int) - q0.toNat|)
  min 255 (u1 + sar |(p1.toNat : Int) - q1.toNat| 1)

/-- The mask of one position (R126). -/
def filterMask (p1 p0 q0 q1 : Sample) (t : Nat) : Bool := decide (edgeActivity p1 p0 q0 q1 ≤ t)

/-- A sample in signed space: `sext_8(u ^ 0x80)` (R127). -/
def signedSample (u : Sample) : Int := (u ^^^ 0x80#8).toInt

/-- Back to the sample's pattern: `0x80` exclusive-ored again (R128). -/
def unsignedSample (v : Int) : Sample := BitVec.ofInt 8 v ^^^ 0x80#8

/-- The filter value `delta`, every partial sum saturated (R127). -/
def filterDelta (p1 p0 q0 q1 : Sample) : Int :=
  let a0 := satS8 (signedSample p1 - signedSample q1)
  let d := satS8 (signedSample q0 - signedSample p0)
  let a1 := satS8 (a0 + d)
  let a2 := satS8 (a1 + d)
  satS8 (a2 + d)

/-- `f1` (R128). -/
def filterStepP (delta : Int) : Int := sar (satS8 (delta + 3)) 3

/-- `f2` (R128). -/
def filterStepQ (delta : Int) : Int := sar (satS8 (delta + 4)) 3

/-- The updated `p0`, where the mask passes (R128). -/
def filteredP (p0 : Sample) (delta : Int) : Sample :=
  unsignedSample (satS8 (signedSample p0 + filterStepP delta))

/-- The updated `q0`, where the mask passes (R128). -/
def filteredQ (q0 : Sample) (delta : Int) : Sample :=
  unsignedSample (satS8 (signedSample q0 - filterStepQ delta))

/-- The per-position function `FILT` (R130). -/
def filt (p1 p0 q0 q1 : Sample) (t : Nat) : Sample × Sample :=
  if filterMask p1 p0 q0 q1 t then
    (filteredP p0 (filterDelta p1 p0 q0 q1), filteredQ q0 (filterDelta p1 p0 q0 q1))
  else (p0, q0)

/-- `FILT` on the four samples around `q`, the address of `q0` (R125). -/
def filtAt (s : State) (q ss t : Nat) : Sample × Sample :=
  filt (s.pixel (q - 2 * ss)) (s.pixel (q - ss)) (s.pixel q) (s.pixel (q + ss)) t

/-- The 32 samples that `EDGE(e, ps, ss, t)` writes, with their addresses (R131). -/
def edgeCells (s : State) (e ps ss t : Nat) : List (Nat × Sample) :=
  (List.range 16).flatMap fun i =>
    [(edgeAddr e ps i - ss, (filtAt s (edgeAddr e ps i) ss t).1),
     (edgeAddr e ps i, (filtAt s (edgeAddr e ps i) ss t).2)]

/-- The samples that the three inner edges write (R134, R135), every edge read from the state before the command
(R47; R140 says the order is not observable). -/
def innerEdgeCells (s : State) (b ps ss t : Nat) : List (Nat × Sample) :=
  innerEdges.flatMap fun e => edgeCells s (b + e * ss) ps ss t

/-- `SIMPLE_VFILTER16` (R132). -/
def execSimpleVfilter16 (b thresh : Nat) (s : State) : Host.Outcome State Fault Refusal :=
  s.carryOut (.simpleVfilter16 b thresh) (s.storePix (edgeCells s b 1 s.cfg.bps thresh))

/-- `SIMPLE_HFILTER16` (R133). -/
def execSimpleHfilter16 (b thresh : Nat) (s : State) : Host.Outcome State Fault Refusal :=
  s.carryOut (.simpleHfilter16 b thresh) (s.storePix (edgeCells s b s.cfg.bps 1 thresh))

/-- `SIMPLE_VFILTER16I` (R134). -/
def execSimpleVfilter16i (b thresh : Nat) (s : State) : Host.Outcome State Fault Refusal :=
  s.carryOut (.simpleVfilter16i b thresh) (s.storePix (innerEdgeCells s b 1 s.cfg.bps thresh))

/-- `SIMPLE_HFILTER16I` (R135). -/
def execSimpleHfilter16i (b thresh : Nat) (s : State) : Host.Outcome State Fault Refusal :=
  s.carryOut (.simpleHfilter16i b thresh) (s.storePix (innerEdgeCells s b s.cfg.bps 1 thresh))

end Sys2Proof.Machine
end

