-- ==== Sys2Proof/Machine/Dispatch.lean ====
section
/-! DEFINITION. One arm per constructor of `Instr`. -/

namespace Sys2Proof.Machine

def exec (i : Instr) (s : State) : Host.Outcome State Fault Refusal :=
  match i with
  | .init => Sys2Proof.Machine.execInit s
  | .transform a b => Sys2Proof.Machine.execTransform a b s
  | .transform2 a b => Sys2Proof.Machine.execTransform2 a b s
  | .transformDc a b => Sys2Proof.Machine.execTransformDc a b s
  | .transformAc3 a b => Sys2Proof.Machine.execTransformAc3 a b s
  | .transformWht a b => Sys2Proof.Machine.execTransformWht a b s
  | .simpleVfilter16 b t => Sys2Proof.Machine.execSimpleVfilter16 b t s
  | .simpleHfilter16 b t => Sys2Proof.Machine.execSimpleHfilter16 b t s
  | .simpleVfilter16i b t => Sys2Proof.Machine.execSimpleVfilter16i b t s
  | .simpleHfilter16i b t => Sys2Proof.Machine.execSimpleHfilter16i b t s

end Sys2Proof.Machine
end

