-- ==== Sys2Proof/Machine/Command.lean ====
section
/-! DEFINITION. What the command interface does with a word, and what each action of the host does
(spec/30_encoding.md R60, spec/60_exceptions.md R158, spec/70_reset_and_hazards.md R175, R179). -/

namespace Sys2Proof.Machine

/-- The current core is given a command word: it decodes it and executes it completely (R48, R60); an illegal word
is the fault `ILLEGAL_COMMAND` (R67, R158). -/
def State.runWord (s : State) (w : Word) : Host.Outcome State Fault Refusal :=
  match decode w with
  | .command i => exec i s
  | .illegal _ => .next (s.raise .illegalCommand)

/-- One action of the host, in a state from whose list it has been taken (R179). Of a command's noted accesses only
interference is checked (R161): no cell is changed by a write that `during` notes, whether or not the command faults
`RACE` (DESIGN CHOICE, log entry 8). -/
def State.perform (s : State) (act : HostAction) : Host.Outcome State Fault Refusal :=
  match act with
  | .command k w during =>
    match s.select k with
    | none => .fault .noSuchCore
    | some t => State.runWord { t with contention := during } w
  | .writePix a v =>
    if a < s.cfg.pixSize then .next (s.storePix [(a, v)]) else .fault .noSuchCell
  | .writeCoef w v =>
    if w < s.cfg.coefSize then .next (s.storeCoef [(w, v)]) else .fault .noSuchCell
  | .reset pix coef => .next (s.applyReset pix coef)

end Sys2Proof.Machine
end

