-- ==== Sys2Proof/Machine/Step.lean ====
section
/-! DEFINITION. One step: the next action of the host's list (spec/10_state.md R21, spec/70_reset_and_hazards.md
R179, R188, R189). -/

namespace Sys2Proof.Machine

/-- The next action of the host is performed; with nothing left the core is idle and keeps its state (R168,
R189). -/
def step (s : State) : Host.Outcome State Fault Refusal :=
  match s.host with
  | [] => .next s
  | act :: rest => State.perform { s with host := rest } act

/-- `s` with an instruction's word as the host's next command to the current core, no other agent touching
memory meanwhile. The core fetches from no memory (spec/20_memory.md R53). -/
def State.withFetchWord (s : State) (nbits w : Nat) : State :=
  { s with host := .command s.current (BitVec.ofNat 64 (w % 2 ^ nbits)) [] :: s.host }

end Sys2Proof.Machine
end

