-- ==== Sys2Proof/Safety.lean ====
section
/-! DEFINITION. What the claims call a sound state and a good end. -/

namespace Sys2Proof.Machine

/-- A core's latch agrees with its initialisation: a core that faulted `NOT_INITIALIZED` is not initialised, and one
that faulted `BOUNDS` or `SPARSITY` is (spec/60_exceptions.md R157, R159, R160). That one that faulted `RACE` is
initialised too rests on `RACE` being tested last, which R157 leaves open (DESIGN CHOICE, log entry 7). -/
def CoreState.consistent (c : CoreState) : Bool :=
  match c.fault with
  | .none => true
  | .illegalCommand => true
  | .notInitialized => !c.initDone
  | .bounds => c.initDone
  | .sparsity => c.initDone
  | .race => c.initDone

/-- The invariant of every step: a configuration R6 allows, both memories canonical and inside their spaces, and
every core's latch consistent with its initialisation. -/
structure State.Inv (s : State) : Prop where
  cfgOk : s.cfg.ok
  pixWf : s.pix.wf
  coefWf : s.coef.wf
  pixWithin : s.pix.within s.cfg.pixSize
  coefWithin : s.coef.within s.cfg.coefSize
  coresConsistent : ∀ c ∈ s.cores, c.consistent = true

/-- A good end of a run: the host's list is exhausted and no core has faulted (spec/70_reset_and_hazards.md
R189). -/
def State.goodEnd (s : State) : Bool :=
  s.host.isEmpty && s.cores.all fun c => decide (c.fault = .none)

end Sys2Proof.Machine
end

