-- ==== Sys2Proof/Certificates/Slice0/Obligations.lean ====
section
/-! DEFINITION. The statements for the provers, from the numbered rules of spec/. -/

open Sys2Proof Sys2Proof.Machine

/-! ## Encoding (spec/30_encoding.md) -/

/-- R70: `decode(encode(c)) = c` for every command term whose fields fit their widths. -/
def Obligations.DecodeOfEncode : Prop :=
  ∀ i : Instr, i.wf = true → decode (encode i) = .command i

/-- R70: `encode(decode(cmd)) = cmd` for every legal word, and what a legal word decodes to fits its fields. -/
def Obligations.EncodeOfDecode : Prop :=
  ∀ (w : Word) (i : Instr), decode w = .command i → encode i = w ∧ i.wf = true

/-- R66: a word is the command of a row exactly when `(cmd AND mask) = match`, and the rows are pairwise
exclusive. -/
def Obligations.WordIsRowsCommandExactlyWhenMaskedMatch : Prop :=
  ∀ w : Word,
    (∀ row ∈ opcodeRows,
      (w &&& row.mask = row.pattern ↔ ∃ i, decode w = .command i ∧ i.mnemonic = row.mnemonic)) ∧
    (∀ row ∈ opcodeRows, ∀ row' ∈ opcodeRows,
      w &&& row.mask = row.pattern → w &&& row'.mask = row'.pattern → row = row')

/-- R74: the example words decode to their commands, and the four illegal words to none. -/
def Obligations.SpecExampleWordsDecode : Prop :=
  decode 0x0000000000000001 = .command .init ∧
  decode 0x0000000000000010 = .command (.transform 0 0) ∧
  decode 0x0000000000000110 = .command (.transform2 0 0) ∧
  decode 0x0048001000000011 = .command (.transformDc 16 72) ∧
  decode 0x0080002000000012 = .command (.transformAc3 32 128) ∧
  decode 0x0000010000000013 = .command (.transformWht 256 0) ∧
  decode 0x0080000000780020 = .command (.simpleVfilter16 128 120) ∧
  decode 0x00040000003C0021 = .command (.simpleHfilter16 4 60) ∧
  decode 0x00440000000C0022 = .command (.simpleVfilter16i 68 12) ∧
  decode 0x00440000000C0023 = .command (.simpleHfilter16i 68 12) ∧
  (∀ w ∈ [(0x0000000000000000 : Word), 0x0000000000050011, 0x0001000000000001, 0x0000000000000120],
    ∀ i, decode w ≠ .command i)

/-- R67: a word that matches no row is `ILLEGAL_COMMAND` and has no other effect, the all-zero and the all-ones word
among them. -/
def Obligations.IllegalWordFaultsWithNoOtherEffect : Prop :=
  (∀ (s : State) (w : Word), s.fault = .none → (∀ row ∈ opcodeRows, w &&& row.mask ≠ row.pattern) →
    s.runWord w = .next { s with fault := .illegalCommand }) ∧
  (∀ w ∈ [(0 : Word), BitVec.allOnes 64], ∀ row ∈ opcodeRows, w &&& row.mask ≠ row.pattern)

/-! ## The step -/

/-- When the host's next action presents a word that decodes to `i` to core `k`, the step is `exec i` on that core,
with the action taken from the list and the other agents' accesses noted; and `withFetchWord` makes the next step
run exactly the word's instruction on the current core. That the host's actions are a list in State is the model's
choice (log entries 5, 8). -/
def Obligations.StepExecutesDecodedCommand : Prop :=
  (∀ (s t : State) (k : Nat) (w : Word) (during : List Access) (rest : List HostAction) (i : Instr),
    s.host = .command k w during :: rest → ({ s with host := rest } : State).select k = some t →
    decode w = .command i → step s = exec i { t with contention := during }) ∧
  (∀ (s : State) (nbits w : Nat) (i : Instr), decode (BitVec.ofNat 64 (w % 2 ^ nbits)) = .command i →
    step (s.withFetchWord nbits w) = exec i { s with contention := [] })

/-- R168, R189: with nothing left to do the core is idle and every piece of state is held. That an idle core still
steps is the model's choice (log entry 5). -/
def Obligations.IdleCoreHoldsState : Prop :=
  ∀ s : State, s.host = [] → step s = .next s

/-- R179: the host writes any one cell of either memory; the cell holds the value and nothing else changes. The action
that does it is the model's (log entry 5). -/
def Obligations.HostWritesOneCell : Prop :=
  (∀ (s : State) (a : Nat) (v : Sample) (rest : List HostAction),
    s.pix.wf → s.host = .writePix a v :: rest → a < s.cfg.pixSize →
    ∃ t, step s = .next t ∧ t = { s with pix := t.pix, host := rest } ∧ t.pixel a = v ∧
      ∀ x, x ≠ a → t.pixel x = s.pixel x) ∧
  (∀ (s : State) (a : Nat) (v : Coef) (rest : List HostAction),
    s.coef.wf → s.host = .writeCoef a v :: rest → a < s.cfg.coefSize →
    ∃ t, step s = .next t ∧ t = { s with coef := t.coef, host := rest } ∧ t.coefficient a = v.toInt ∧
      ∀ x, x ≠ a → t.coefficient x = s.coefficient x)

/-- R175: reset, on every core, clears `INIT_DONE` and `FAULT` and leaves nothing in progress, from any state; the
configuration and the number of cores stay. What the memories hold is the reset action's own data (log entry 3). -/
def Obligations.ResetClearsEveryCore : Prop :=
  ∀ (s : State) (pix : Mem 8) (coef : Mem 16) (rest : List HostAction), s.host = .reset pix coef :: rest →
    ∃ t, step s = .next t ∧ t.cores.length = s.cores.length ∧
      (∀ c ∈ t.cores, c.initDone = false ∧ c.fault = .none) ∧ t.contention = [] ∧ t.cfg = s.cfg ∧ t.host = rest

/-- R28: what reset leaves, whatever the configuration and the memory contents. -/
def Obligations.ResetStateIsUninitialised : Prop :=
  (∀ cfg pix coef, (State.resetOf cfg pix coef).initDone = false ∧ (State.resetOf cfg pix coef).fault = .none ∧
    (State.resetOf cfg pix coef).contention = []) ∧
  State.reset.initDone = false ∧ State.reset.fault = .none

/-! ## The admission check and faults (spec/60_exceptions.md) -/

/-- R157, R158: on a clear latch the command faults with the first class that applies, in the order `ILLEGAL_COMMAND`,
`NOT_INITIALIZED`, `BOUNDS`, `SPARSITY`; a command to which none applies is admitted, when no other agent touches memory
meanwhile, and `INIT` always is. That a command which fails a check latches that class even when it also races is the
model's choice (log entry 7): R157 puts `RACE` outside its order. -/
def Obligations.FaultPriority : Prop :=
  ∀ (s : State) (w : Word), s.fault = .none →
    ((∀ i, decode w ≠ .command i) → s.runWord w = .next { s with fault := .illegalCommand }) ∧
    (decode w = .command .init → ∃ t, s.runWord w = .next t ∧ t.fault = .none) ∧
    ∀ i, decode w = .command i → i ≠ .init →
      (s.initDone = false → s.runWord w = .next { s with fault := .notInitialized }) ∧
      (s.initDone = true →
        ((∃ a ∈ (footprint s.cfg.bps i).coefRead ++ (footprint s.cfg.bps i).coefWrite,
            a < 0 ∨ (s.cfg.coefSize : Int) ≤ a) ∨
          (∃ a ∈ (footprint s.cfg.bps i).pixRead ++ (footprint s.cfg.bps i).pixWrite,
            a < 0 ∨ (s.cfg.pixSize : Int) ≤ a)) →
        s.runWord w = .next { s with fault := .bounds }) ∧
      (s.initDone = true →
        (∀ a ∈ (footprint s.cfg.bps i).coefRead ++ (footprint s.cfg.bps i).coefWrite,
            0 ≤ a ∧ a < (s.cfg.coefSize : Int)) →
        (∀ a ∈ (footprint s.cfg.bps i).pixRead ++ (footprint s.cfg.bps i).pixWrite,
            0 ≤ a ∧ a < (s.cfg.pixSize : Int)) →
        (((∃ a b m, i = .transformDc a b ∧ 1 ≤ m ∧ m ≤ 15 ∧ s.coefficient (a + m) ≠ 0) ∨
            (∃ a b m, i = .transformAc3 a b ∧ 2 ≤ m ∧ m ≤ 15 ∧ m ≠ 4 ∧ s.coefficient (a + m) ≠ 0)) →
          s.runWord w = .next { s with fault := .sparsity }) ∧
        ((∀ a b m, i = .transformDc a b → 1 ≤ m → m ≤ 15 → s.coefficient (a + m) = 0) →
          (∀ a b m, i = .transformAc3 a b → 2 ≤ m → m ≤ 15 → m ≠ 4 → s.coefficient (a + m) = 0) →
          s.contention = [] → ∃ t, s.runWord w = .next t ∧ t.fault = .none))

/-- The bounds test over the footprints of R44 is, command by command, the closed form of the command's rule
(R158). -/
def Obligations.BoundsTestIsClosedForm : Prop :=
  ∀ (c : Config) (a b t : Nat),
    inBounds c .init = true ∧
    (inBounds c (.transform a b) = true ↔ a + 15 < c.coefSize ∧ b + 3 * c.bps + 3 < c.pixSize) ∧
    (inBounds c (.transform2 a b) = true ↔ a + 31 < c.coefSize ∧ b + 3 * c.bps + 7 < c.pixSize) ∧
    (inBounds c (.transformDc a b) = true ↔ a + 15 < c.coefSize ∧ b + 3 * c.bps + 3 < c.pixSize) ∧
    (inBounds c (.transformAc3 a b) = true ↔ a + 15 < c.coefSize ∧ b + 3 * c.bps + 3 < c.pixSize) ∧
    (inBounds c (.transformWht a b) = true ↔ a + 15 < c.coefSize ∧ b + 240 < c.coefSize) ∧
    (inBounds c (.simpleVfilter16 b t) = true ↔ 2 * c.bps ≤ b ∧ b + c.bps + 15 < c.pixSize) ∧
    (inBounds c (.simpleHfilter16 b t) = true ↔ 2 ≤ b ∧ b + 15 * c.bps + 1 < c.pixSize) ∧
    (inBounds c (.simpleVfilter16i b t) = true ↔ b + 13 * c.bps + 15 < c.pixSize) ∧
    (inBounds c (.simpleHfilter16i b t) = true ↔ b + 15 * c.bps + 13 < c.pixSize)

/-- R159: a command that faults has no effect but the latch; there are no partial effects. -/
def Obligations.FaultingCommandChangesOnlyTheLatch : Prop :=
  ∀ (s t : State) (w : Word), s.runWord w = .next t → t.fault ≠ s.fault →
    s.fault = .none ∧ t = { s with fault := t.fault }

/-- R160: while the latch is set no command, legal or not, `INIT` included, has any effect and the latch keeps its first
value; reset clears it. -/
def Obligations.LatchedFaultStopsEveryCommand : Prop :=
  (∀ (s : State) (w : Word), s.fault ≠ .none → s.runWord w = .next s) ∧
  (∀ (s : State) (pix : Mem 8) (coef : Mem 16) (rest : List HostAction), s.fault ≠ .none →
    s.host = .reset pix coef :: rest → ∃ t, step s = .next t ∧ t.fault = .none)

/-- R156: a command that passes the admission check completes, its core's latch stays clear, and it ends in no
stop of the model, whatever the memories hold; and but for `SPARSITY` no fault depends on what the memories hold. -/
def Obligations.AdmittedCommandCompletes : Prop :=
  (∀ (s : State) (i : Instr), s.fault = .none → s.admission i = .none →
    ∃ t, exec i s = .next t ∧ t.fault = .none) ∧
  (∀ (s : State) (i : Instr) (pix : Mem 8) (coef : Mem 16), s.admission i ≠ .sparsity →
    ({ s with pix := pix, coef := coef } : State).admission i ≠ .sparsity →
    ({ s with pix := pix, coef := coef } : State).admission i = s.admission i)

/-- Only reset clears `INIT_DONE` and only reset clears `FAULT` (R175, with R22, R23, R153): any other action of the
host keeps the number of cores, a core once initialised, and a latch once set with its first value. -/
def Obligations.OnlyResetClearsLatchAndInitDone : Prop :=
  ∀ (s t : State) (act : HostAction) (rest : List HostAction), s.host = act :: rest →
    (∀ pix coef, act ≠ .reset pix coef) → step s = .next t →
    t.cores.length = s.cores.length ∧
    ∀ (k : Nat) (c d : CoreState), s.cores[k]? = some c → t.cores[k]? = some d →
      (c.initDone = true → d.initDone = true) ∧ (c.fault ≠ .none → d.fault = c.fault)

/-- A command presented to core `k` leaves the private state of every other core alone (R170). That cores have numbers
is the model's choice (log entry 6). -/
def Obligations.CommandLeavesOtherCoresAlone : Prop :=
  ∀ (s t : State) (k : Nat) (w : Word) (during : List Access) (rest : List HostAction),
    s.host = .command k w during :: rest → step s = .next t →
    ∀ j, j ≠ k → t.cores[j]? = s.cores[j]?

/-- A command that would otherwise be admitted faults `RACE` when, while it executes, another agent writes a cell of
its read or write footprint or reads a cell of its write footprint (R49, R50, R161). That this test comes last is
the model's choice (log entry 7). -/
def Obligations.InterferenceIsRace : Prop :=
  ∀ (s : State) (i : Instr) (x : Access), s.fault = .none → s.initDone = true → inBounds s.cfg i = true →
    s.sparse i = true → x ∈ s.contention → i ≠ .init →
    (x.space = .pix ∧ x.kind = .write ∧
        (x.addr : Int) ∈ (footprint s.cfg.bps i).pixRead ++ (footprint s.cfg.bps i).pixWrite ∨
      x.space = .pix ∧ x.kind = .read ∧ (x.addr : Int) ∈ (footprint s.cfg.bps i).pixWrite ∨
      x.space = .coef ∧ x.kind = .write ∧
        (x.addr : Int) ∈ (footprint s.cfg.bps i).coefRead ++ (footprint s.cfg.bps i).coefWrite ∨
      x.space = .coef ∧ x.kind = .read ∧ (x.addr : Int) ∈ (footprint s.cfg.bps i).coefWrite) →
    exec i s = .next { s with fault := .race }

/-! ## Memory (spec/20_memory.md) -/

/-- R44, R45: no command, whatever its outcome, changes a cell outside the write footprint of R44, and none changes the
configuration, the other cores, the accesses noted or the host's list. -/
def Obligations.CommandWritesOnlyItsWriteFootprint : Prop :=
  ∀ (s t : State) (i : Instr), exec i s = .next t →
    t = { s with initDone := t.initDone, fault := t.fault, pix := t.pix, coef := t.coef } ∧
    (∀ x : Nat, (x : Int) ∉ (footprint s.cfg.bps i).pixWrite → t.pixel x = s.pixel x) ∧
    (∀ x : Nat, (x : Int) ∉ (footprint s.cfg.bps i).coefWrite → t.coefficient x = s.coefficient x) ∧
    (i ≠ .init → t.initDone = s.initDone)

/-- R45, R47: what an admitted command writes is a function of its read footprint before the command: two states that
agree there are given the same cells. -/
def Obligations.ResultDependsOnlyOnReadFootprint : Prop :=
  ∀ (s s' t t' : State) (i : Instr), s.pix.wf → s'.pix.wf → s.coef.wf → s'.coef.wf → s.cfg = s'.cfg →
    s.fault = .none → s'.fault = .none → s.admission i = .none → s'.admission i = .none →
    (∀ x : Nat, (x : Int) ∈ (footprint s.cfg.bps i).pixRead → s.pixel x = s'.pixel x) →
    (∀ x : Nat, (x : Int) ∈ (footprint s.cfg.bps i).coefRead → s.coefficient x = s'.coefficient x) →
    exec i s = .next t → exec i s' = .next t' →
    (∀ x : Nat, (x : Int) ∈ (footprint s.cfg.bps i).pixWrite → t.pixel x = t'.pixel x) ∧
    (∀ x : Nat, (x : Int) ∈ (footprint s.cfg.bps i).coefWrite → t.coefficient x = t'.coefficient x)

/-- R46: with `BPS >= 16` no two elements of a command's footprint share an address. -/
def Obligations.FootprintCellsAreDistinct : Prop :=
  ∀ (bps : Nat) (i : Instr), 16 ≤ bps →
    (footprint bps i).pixRead.Nodup ∧ (footprint bps i).pixWrite.Nodup ∧
    (footprint bps i).coefRead.Nodup ∧ (footprint bps i).coefWrite.Nodup

/-- R50: two admitted commands such that neither one's write footprint meets the other's read or write footprint
commute: both orders complete in the same state. -/
def Obligations.DisjointCommandsCommute : Prop :=
  ∀ (s : State) (i j : Instr), s.pix.wf → s.coef.wf → s.fault = .none →
    s.admission i = .none → s.admission j = .none → i ≠ .init → j ≠ .init →
    (∀ x ∈ (footprint s.cfg.bps i).pixWrite,
      x ∉ (footprint s.cfg.bps j).pixRead ∧ x ∉ (footprint s.cfg.bps j).pixWrite) →
    (∀ x ∈ (footprint s.cfg.bps j).pixWrite, x ∉ (footprint s.cfg.bps i).pixRead) →
    (∀ x ∈ (footprint s.cfg.bps i).coefWrite,
      x ∉ (footprint s.cfg.bps j).coefRead ∧ x ∉ (footprint s.cfg.bps j).coefWrite) →
    (∀ x ∈ (footprint s.cfg.bps j).coefWrite, x ∉ (footprint s.cfg.bps i).coefRead) →
    ∃ u v t, exec i s = .next u ∧ exec j u = .next t ∧ exec j s = .next v ∧ exec i v = .next t

/-! ## Initialisation (spec/44_dispatch_init.md) -/

/-- R150: `INIT` is the one word 1; on a clear latch it sets `INIT_DONE` and changes nothing else, initialised or not. -/
def Obligations.InitSetsInitDoneOnly : Prop :=
  (∀ w : Word, decode w = .command .init ↔ w = 0x0000000000000001) ∧
  ∀ s : State, s.fault = .none → exec .init s = .next { s with initDone := true }

/-- R151: a repeated `INIT` has no effect at all, so every command after it finds the state it would have found without
it. -/
def Obligations.InitIsIdempotent : Prop :=
  (∀ (s t : State), exec .init s = .next t → s.fault = .none → t.initDone = true ∧ exec .init t = .next t) ∧
  (∀ s : State, s.initDone = true → exec .init s = .next s)

/-! ## The Inverse Transform commands (spec/41_inverse_transform.md) -/

/-- R92: `TRANSFORM`. When admitted it completes, pixel `(r, k)` of the block becomes the rounded, saturated sum of R87
to R90, `t` and `o` being the two passes, and nothing else changes; not initialised is `NOT_INITIALIZED`, out of range
is `BOUNDS`. -/
def Obligations.TransformContract : Prop :=
  ∀ (s : State) (a b : Nat), s.cfg.ok → s.pix.wf → s.fault = .none → s.raced (.transform a b) = false →
    (s.initDone = true → a + 15 < s.cfg.coefSize → b + 3 * s.cfg.bps + 3 < s.cfg.pixSize →
      ∃ z, exec (.transform a b) s = .next z ∧ z = { s with pix := z.pix } ∧
        (∀ t o : Nat → Nat → Int,
          (∀ k < 4, (⟨t 0 k, t 1 k, t 2 k, t 3 k⟩ : Quad) =
            butterfly ⟨s.coefficient (a + k), s.coefficient (a + 4 + k), s.coefficient (a + 8 + k),
              s.coefficient (a + 12 + k)⟩) →
          (∀ r < 4, (⟨o r 0, o r 1, o r 2, o r 3⟩ : Quad) = butterfly ⟨t r 0, t r 1, t r 2, t r 3⟩) →
          ∀ r < 4, ∀ k < 4, ((z.pixel (b + r * s.cfg.bps + k)).toNat : Int) =
            satU8 ((s.pixel (b + r * s.cfg.bps + k)).toNat + sar (o r k + 4) 3)) ∧
        (∀ x, (∀ r < 4, ∀ k < 4, x ≠ b + r * s.cfg.bps + k) → z.pixel x = s.pixel x)) ∧
    (s.initDone = false → exec (.transform a b) s = .next { s with fault := .notInitialized }) ∧
    (s.initDone = true → ¬(a + 15 < s.cfg.coefSize ∧ b + 3 * s.cfg.bps + 3 < s.cfg.pixSize) →
      exec (.transform a b) s = .next { s with fault := .bounds })

/-- R93: `TRANSFORM2`. When admitted it completes, block `n` in 0..1 at columns `4*n .. 4*n+3` is transformed from the
coefficients at `A + 16*n`, and nothing else changes; the bounds are checked for both blocks. -/
def Obligations.Transform2Contract : Prop :=
  ∀ (s : State) (a b : Nat), s.cfg.ok → s.pix.wf → s.fault = .none → s.raced (.transform2 a b) = false →
    (s.initDone = true → a + 31 < s.cfg.coefSize → b + 3 * s.cfg.bps + 7 < s.cfg.pixSize →
      ∃ z, exec (.transform2 a b) s = .next z ∧ z = { s with pix := z.pix } ∧
        (∀ n < 2, ∀ r < 4, ∀ k < 4, ((z.pixel (b + 4 * n + r * s.cfg.bps + k)).toNat : Int) =
          satU8 ((s.pixel (b + 4 * n + r * s.cfg.bps + k)).toNat +
            (residual (s.coefBlock (a + 16 * n))).get r k)) ∧
        (∀ x, (∀ r < 4, ∀ k < 8, x ≠ b + r * s.cfg.bps + k) → z.pixel x = s.pixel x)) ∧
    (s.initDone = false → exec (.transform2 a b) s = .next { s with fault := .notInitialized }) ∧
    (s.initDone = true → ¬(a + 31 < s.cfg.coefSize ∧ b + 3 * s.cfg.bps + 7 < s.cfg.pixSize) →
      exec (.transform2 a b) s = .next { s with fault := .bounds })

/-- R94: `TRANSFORM_DC`. When admitted it completes, `(COEF[A] + 4) >> 3` is added to each of the 16 pixels with
saturation, and nothing else changes; a non-zero AC coefficient is `SPARSITY`. -/
def Obligations.TransformDcContract : Prop :=
  ∀ (s : State) (a b : Nat), s.cfg.ok → s.pix.wf → s.fault = .none → s.raced (.transformDc a b) = false →
    (s.initDone = true → a + 15 < s.cfg.coefSize → b + 3 * s.cfg.bps + 3 < s.cfg.pixSize →
      (∀ m, 1 ≤ m → m ≤ 15 → s.coefficient (a + m) = 0) →
      ∃ z, exec (.transformDc a b) s = .next z ∧ z = { s with pix := z.pix } ∧
        (∀ r < 4, ∀ k < 4, ((z.pixel (b + r * s.cfg.bps + k)).toNat : Int) =
          satU8 ((s.pixel (b + r * s.cfg.bps + k)).toNat + sar (s.coefficient a + 4) 3)) ∧
        (∀ x, (∀ r < 4, ∀ k < 4, x ≠ b + r * s.cfg.bps + k) → z.pixel x = s.pixel x)) ∧
    (s.initDone = false → exec (.transformDc a b) s = .next { s with fault := .notInitialized }) ∧
    (s.initDone = true → ¬(a + 15 < s.cfg.coefSize ∧ b + 3 * s.cfg.bps + 3 < s.cfg.pixSize) →
      exec (.transformDc a b) s = .next { s with fault := .bounds }) ∧
    (s.initDone = true → a + 15 < s.cfg.coefSize → b + 3 * s.cfg.bps + 3 < s.cfg.pixSize →
      (∃ m, 1 ≤ m ∧ m ≤ 15 ∧ s.coefficient (a + m) ≠ 0) →
      exec (.transformDc a b) s = .next { s with fault := .sparsity })

/-- R96: `TRANSFORM_AC3`. When admitted it completes, pixel `(r, k)` gets `(DC + 4 + CD[k] + ROW[r]) >> 3` with
saturation, and nothing else changes; a non-zero coefficient other than 0, 1 and 4 is `SPARSITY`. -/
def Obligations.TransformAc3Contract : Prop :=
  ∀ (s : State) (a b : Nat), s.cfg.ok → s.pix.wf → s.fault = .none → s.raced (.transformAc3 a b) = false →
    (s.initDone = true → a + 15 < s.cfg.coefSize → b + 3 * s.cfg.bps + 3 < s.cfg.pixSize →
      (∀ m, 2 ≤ m → m ≤ 15 → m ≠ 4 → s.coefficient (a + m) = 0) →
      ∃ z, exec (.transformAc3 a b) s = .next z ∧ z = { s with pix := z.pix } ∧
        (∀ r < 4, ∀ k < 4, ((z.pixel (b + r * s.cfg.bps + k)).toNat : Int) =
          satU8 ((s.pixel (b + r * s.cfg.bps + k)).toNat +
            sar (s.coefficient a + 4 +
              [mul1 (s.coefficient (a + 1)), mul2 (s.coefficient (a + 1)), -mul2 (s.coefficient (a + 1)),
                -mul1 (s.coefficient (a + 1))].getD k 0 +
              [mul1 (s.coefficient (a + 4)), mul2 (s.coefficient (a + 4)), -mul2 (s.coefficient (a + 4)),
                -mul1 (s.coefficient (a + 4))].getD r 0) 3)) ∧
        (∀ x, (∀ r < 4, ∀ k < 4, x ≠ b + r * s.cfg.bps + k) → z.pixel x = s.pixel x)) ∧
    (s.initDone = false → exec (.transformAc3 a b) s = .next { s with fault := .notInitialized }) ∧
    (s.initDone = true → ¬(a + 15 < s.cfg.coefSize ∧ b + 3 * s.cfg.bps + 3 < s.cfg.pixSize) →
      exec (.transformAc3 a b) s = .next { s with fault := .bounds }) ∧
    (s.initDone = true → a + 15 < s.cfg.coefSize → b + 3 * s.cfg.bps + 3 < s.cfg.pixSize →
      (∃ m, 2 ≤ m ∧ m ≤ 15 ∧ m ≠ 4 ∧ s.coefficient (a + m) ≠ 0) →
      exec (.transformAc3 a b) s = .next { s with fault := .sparsity })

/-- R95: wherever `TRANSFORM_DC` is admitted it does exactly what `TRANSFORM` does. -/
def Obligations.TransformDcAgreesWithTransform : Prop :=
  ∀ (s : State) (a b : Nat), s.admission (.transformDc a b) = .none →
    exec (.transformDc a b) s = exec (.transform a b) s

/-- R97: wherever `TRANSFORM_AC3` is admitted it does exactly what `TRANSFORM` does, and for such a block the order of
the passes does not matter. -/
def Obligations.TransformAc3AgreesWithTransform : Prop :=
  (∀ (s : State) (a b : Nat), s.admission (.transformAc3 a b) = .none →
    exec (.transformAc3 a b) s = exec (.transform a b) s) ∧
  (∀ c : Block, (∀ r < 4, ∀ k < 4, 4 * r + k ≠ 0 → 4 * r + k ≠ 1 → 4 * r + k ≠ 4 → c.get r k = 0) →
    ((c.onRows butterfly).onColumns butterfly).onCells roundResidual = residual c)

/-- R93: an admitted `TRANSFORM2` equals `TRANSFORM(A, B)` followed by `TRANSFORM(A+16, B+4)`, in either order. -/
def Obligations.Transform2IsTwoTransforms : Prop :=
  ∀ (s : State) (a b : Nat), s.cfg.ok → s.pix.wf → s.fault = .none → s.admission (.transform2 a b) = .none →
    ∃ u v z, exec (.transform2 a b) s = .next z ∧
      exec (.transform a b) s = .next u ∧ exec (.transform (a + 16) (b + 4)) u = .next z ∧
      exec (.transform (a + 16) (b + 4)) s = .next v ∧ exec (.transform a b) v = .next z

/-- R98: the ranges of the two passes and of the residual for coefficients in -32768..32767, the extreme being reached
with all 16 coefficients equal to -32768; and the products inside the multipliers of the second pass. -/
def Obligations.TransformRanges : Prop :=
  (∀ c : Block, (∀ r < 4, ∀ k < 4, -32768 ≤ c.get r k ∧ c.get r k ≤ 32767) → ∀ r < 4, ∀ k < 4,
    |(firstPass c).get r k| ≤ 126084 ∧
    |(secondPass (firstPass c)).get r k| ≤ 485142 ∧
    |(residual c).get r k| ≤ 60643 ∧
    |(firstPass c).get r k * 20091| ≤ 2533153644 ∧
    |(firstPass c).get r k * 35468| ≤ 4471947312 ∧
    |(firstPass c).get r k * 85627| ≤ 10796194668) ∧
  (firstPass (Block.ofFn fun _ _ => -32768)).get 0 0 = -126084 ∧
  (secondPass (firstPass (Block.ofFn fun _ _ => -32768))).get 0 0 = -485142 ∧
  (residual (Block.ofFn fun _ _ => -32768)).get 0 0 = -60643

/-- R91: adding 4 to `t[r][0]` before the second pass gives the same 16 values as adding 4 to each `o[r][k]`. -/
def Obligations.BiasBeforeSecondPassIsBiasAfter : Prop :=
  ∀ t : Block,
    secondPass (t.onRows fun q => { q with x0 := q.x0 + 4 }) = (secondPass t).onCells fun o => o + 4

/-- R13: the two multipliers; the two forms of `MUL1` are the same function, and neither multiplier is odd. -/
def Obligations.MultiplierForms : Prop :=
  (∀ x : Int, mul1 x = x + sar (x * 20091) 16 ∧ mul2 x = sar (x * 35468) 16 ∧ mul1 x = sar (x * 85627) 16) ∧
  mul1 1 = 1 ∧ mul1 (-1) = -2 ∧ mul2 1 = 0 ∧ mul2 (-1) = -1

/-- R99: with `c[5] = 5` alone, columns first gives the residual of the rule and rows first gives another. -/
def Obligations.PassOrderIsObservable : Prop :=
  firstPass (Block.ofFn fun r k => if r = 1 ∧ k = 1 then 5 else 0) =
    { r0 := ⟨0, 6, 0, 0⟩, r1 := ⟨0, 2, 0, 0⟩, r2 := ⟨0, -2, 0, 0⟩, r3 := ⟨0, -6, 0, 0⟩ } ∧
  secondPass (firstPass (Block.ofFn fun r k => if r = 1 ∧ k = 1 then 5 else 0)) =
    { r0 := ⟨7, 3, -3, -7⟩, r1 := ⟨2, 1, -1, -2⟩, r2 := ⟨-3, -2, 2, 3⟩, r3 := ⟨-8, -4, 4, 8⟩ } ∧
  residual (Block.ofFn fun r k => if r = 1 ∧ k = 1 then 5 else 0) =
    { r0 := ⟨1, 0, 0, -1⟩, r1 := ⟨0, 0, 0, 0⟩, r2 := ⟨0, 0, 0, 0⟩, r3 := ⟨-1, 0, 1, 1⟩ } ∧
  (((Block.ofFn fun r k => if r = 1 ∧ k = 1 then 5 else 0).onRows butterfly).onColumns butterfly).onCells
      roundResidual =
    { r0 := ⟨1, 0, 0, -1⟩, r1 := ⟨0, 0, 0, 0⟩, r2 := ⟨0, 0, 0, 1⟩, r3 := ⟨-1, 0, 0, 1⟩ }

/-! ## The Inverse Walsh-Hadamard Transform command (spec/42_inverse_wht.md) -/

/-- R116: `TRANSFORM_WHT`. When admitted it completes, slot `(i, j)` becomes the saturated, rounded matrix sum over the
inputs as they were before the command, and nothing else changes. The matrix and the bias are those that R111 and R113
mark as general knowledge (log entry 10). -/
def Obligations.TransformWhtContract : Prop :=
  ∀ (s : State) (a b : Nat), s.coef.wf → s.fault = .none → s.raced (.transformWht a b) = false →
    (s.initDone = true → a + 15 < s.cfg.coefSize → b + 240 < s.cfg.coefSize →
      ∃ z, exec (.transformWht a b) s = .next z ∧ z = { s with coef := z.coef } ∧
        (∀ i < 4, ∀ j < 4, z.coefficient (b + 16 * (4 * i + j)) =
          satS16 (sar ((∑ r ∈ Finset.range 4, ∑ c ∈ Finset.range 4,
            hadamardMatrix i r * hadamardMatrix j c * s.coefficient (a + (4 * r + c))) + 3) 3)) ∧
        (∀ x, (∀ n < 16, x ≠ b + 16 * n) → z.coefficient x = s.coefficient x)) ∧
    (s.initDone = false → exec (.transformWht a b) s = .next { s with fault := .notInitialized }) ∧
    (s.initDone = true → ¬(a + 15 < s.cfg.coefSize ∧ b + 240 < s.cfg.coefSize) →
      exec (.transformWht a b) s = .next { s with fault := .bounds })

/-- R112: `S` is the matrix sum, the two pass orders give the same `S`, and `|S| <= 524288` for 16-bit inputs. The
matrix is the one R111 marks as general knowledge (log entry 10). -/
def Obligations.WhtSumFormsAndRange : Prop :=
  (∀ x : Block, ∀ i < 4, ∀ j < 4, (whtSum x).get i j =
    ∑ r ∈ Finset.range 4, ∑ c ∈ Finset.range 4, hadamardMatrix i r * hadamardMatrix j c * x.get r c) ∧
  (∀ x : Block, (x.onRows hadamard).onColumns hadamard = (x.onColumns hadamard).onRows hadamard) ∧
  (∀ x : Block, (∀ r < 4, ∀ c < 4, -32768 ≤ x.get r c ∧ x.get r c ≤ 32767) →
    ∀ i < 4, ∀ j < 4, |(whtSum x).get i j| ≤ 524288)

/-- R114: the stored value is the saturated one; `y` lies in -65536..65535 for 16-bit inputs; the clamp changes nothing
when `-262147 <= S <= 262140`, which holds whenever the absolute values of the 16 inputs sum to at most 262140, for
instance when every input lies in -16383..16383. -/
def Obligations.WhtClampIsIdleInRange : Prop :=
  (∀ v : Int, (coefOf (roundWht v)).toInt = satS16 (roundWht v)) ∧
  (∀ x : Block, (∀ r < 4, ∀ c < 4, -32768 ≤ x.get r c ∧ x.get r c ≤ 32767) →
    ∀ i < 4, ∀ j < 4, -65536 ≤ roundWht ((whtSum x).get i j) ∧ roundWht ((whtSum x).get i j) ≤ 65535) ∧
  (∀ v : Int, -262147 ≤ v → v ≤ 262140 → satS16 (roundWht v) = roundWht v) ∧
  (∀ x : Block, ∑ r ∈ Finset.range 4, ∑ c ∈ Finset.range 4, |x.get r c| ≤ 262140 →
    ∀ i < 4, ∀ j < 4, -262147 ≤ (whtSum x).get i j ∧ (whtSum x).get i j ≤ 262140) ∧
  (∀ x : Block, (∀ r < 4, ∀ c < 4, -16383 ≤ x.get r c ∧ x.get r c ≤ 16383) →
    ∑ r ∈ Finset.range 4, ∑ c ∈ Finset.range 4, |x.get r c| ≤ 262140)

/-! ## The Loop Filter commands (spec/43_loop_filter.md) -/

/-- R132: `SIMPLE_VFILTER16`. When admitted it completes, the `p0` and `q0` cells of position `i` become `FILT` of that
column's four samples, and nothing else changes. -/
def Obligations.SimpleVfilter16Contract : Prop :=
  ∀ (s : State) (b t : Nat), s.cfg.ok → s.pix.wf → s.fault = .none → s.raced (.simpleVfilter16 b t) = false →
    (s.initDone = true → 2 * s.cfg.bps ≤ b → b + s.cfg.bps + 15 < s.cfg.pixSize →
      ∃ z, exec (.simpleVfilter16 b t) s = .next z ∧ z = { s with pix := z.pix } ∧
        (∀ i < 16, (z.pixel (b + i - s.cfg.bps), z.pixel (b + i)) =
          filt (s.pixel (b + i - 2 * s.cfg.bps)) (s.pixel (b + i - s.cfg.bps)) (s.pixel (b + i))
            (s.pixel (b + i + s.cfg.bps)) t) ∧
        (∀ x, (∀ i < 16, x ≠ b + i - s.cfg.bps ∧ x ≠ b + i) → z.pixel x = s.pixel x)) ∧
    (s.initDone = false → exec (.simpleVfilter16 b t) s = .next { s with fault := .notInitialized }) ∧
    (s.initDone = true → ¬(2 * s.cfg.bps ≤ b ∧ b + s.cfg.bps + 15 < s.cfg.pixSize) →
      exec (.simpleVfilter16 b t) s = .next { s with fault := .bounds })

/-- R133: `SIMPLE_HFILTER16`. When admitted it completes, the `p0` and `q0` cells of row `i` become `FILT` of that row's
four samples, and nothing else changes. -/
def Obligations.SimpleHfilter16Contract : Prop :=
  ∀ (s : State) (b t : Nat), s.cfg.ok → s.pix.wf → s.fault = .none → s.raced (.simpleHfilter16 b t) = false →
    (s.initDone = true → 2 ≤ b → b + 15 * s.cfg.bps + 1 < s.cfg.pixSize →
      ∃ z, exec (.simpleHfilter16 b t) s = .next z ∧ z = { s with pix := z.pix } ∧
        (∀ i < 16, (z.pixel (b + i * s.cfg.bps - 1), z.pixel (b + i * s.cfg.bps)) =
          filt (s.pixel (b + i * s.cfg.bps - 2)) (s.pixel (b + i * s.cfg.bps - 1)) (s.pixel (b + i * s.cfg.bps))
            (s.pixel (b + i * s.cfg.bps + 1)) t) ∧
        (∀ x, (∀ i < 16, x ≠ b + i * s.cfg.bps - 1 ∧ x ≠ b + i * s.cfg.bps) → z.pixel x = s.pixel x)) ∧
    (s.initDone = false → exec (.simpleHfilter16 b t) s = .next { s with fault := .notInitialized }) ∧
    (s.initDone = true → ¬(2 ≤ b ∧ b + 15 * s.cfg.bps + 1 < s.cfg.pixSize) →
      exec (.simpleHfilter16 b t) s = .next { s with fault := .bounds })

/-- R134: `SIMPLE_VFILTER16I`. When admitted it completes: for each inner edge, at macroblock rows 4, 8 and 12, rows
`e-1` and `e` of column `i` become `FILT` of the four samples around the edge, and nothing else changes. -/
def Obligations.SimpleVfilter16iContract : Prop :=
  ∀ (s : State) (b t : Nat), s.cfg.ok → s.pix.wf → s.fault = .none → s.raced (.simpleVfilter16i b t) = false →
    (s.initDone = true → b + 13 * s.cfg.bps + 15 < s.cfg.pixSize →
      ∃ z, exec (.simpleVfilter16i b t) s = .next z ∧ z = { s with pix := z.pix } ∧
        (∀ e ∈ [4, 8, 12], ∀ i < 16,
          (z.pixel (b + (e - 1) * s.cfg.bps + i), z.pixel (b + e * s.cfg.bps + i)) =
          filt (s.pixel (b + (e - 2) * s.cfg.bps + i)) (s.pixel (b + (e - 1) * s.cfg.bps + i))
            (s.pixel (b + e * s.cfg.bps + i)) (s.pixel (b + (e + 1) * s.cfg.bps + i)) t) ∧
        (∀ x, (∀ y ∈ [3, 4, 7, 8, 11, 12], ∀ i < 16, x ≠ b + y * s.cfg.bps + i) → z.pixel x = s.pixel x)) ∧
    (s.initDone = false → exec (.simpleVfilter16i b t) s = .next { s with fault := .notInitialized }) ∧
    (s.initDone = true → ¬(b + 13 * s.cfg.bps + 15 < s.cfg.pixSize) →
      exec (.simpleVfilter16i b t) s = .next { s with fault := .bounds })

/-- R135: `SIMPLE_HFILTER16I`. When admitted it completes: for each inner edge, at macroblock columns 4, 8 and 12,
columns `e-1` and `e` of row `i` become `FILT` of the four samples around the edge, and nothing else changes. -/
def Obligations.SimpleHfilter16iContract : Prop :=
  ∀ (s : State) (b t : Nat), s.cfg.ok → s.pix.wf → s.fault = .none → s.raced (.simpleHfilter16i b t) = false →
    (s.initDone = true → b + 15 * s.cfg.bps + 13 < s.cfg.pixSize →
      ∃ z, exec (.simpleHfilter16i b t) s = .next z ∧ z = { s with pix := z.pix } ∧
        (∀ e ∈ [4, 8, 12], ∀ i < 16,
          (z.pixel (b + i * s.cfg.bps + (e - 1)), z.pixel (b + i * s.cfg.bps + e)) =
          filt (s.pixel (b + i * s.cfg.bps + (e - 2))) (s.pixel (b + i * s.cfg.bps + (e - 1)))
            (s.pixel (b + i * s.cfg.bps + e)) (s.pixel (b + i * s.cfg.bps + (e + 1))) t) ∧
        (∀ x, (∀ y ∈ [3, 4, 7, 8, 11, 12], ∀ i < 16, x ≠ b + i * s.cfg.bps + y) → z.pixel x = s.pixel x)) ∧
    (s.initDone = false → exec (.simpleHfilter16i b t) s = .next { s with fault := .notInitialized }) ∧
    (s.initDone = true → ¬(b + 15 * s.cfg.bps + 13 < s.cfg.pixSize) →
      exec (.simpleHfilter16i b t) s = .next { s with fault := .bounds })

/-- R140, R134: an admitted `SIMPLE_VFILTER16I` equals the three single-edge commands at rows 4, 8 and 12, in any
order. -/
def Obligations.Vfilter16iIsThreeEdgesInAnyOrder : Prop :=
  ∀ (s : State) (b t : Nat) (es : List Nat), s.cfg.ok → s.pix.wf → s.fault = .none →
    s.admission (.simpleVfilter16i b t) = .none → es.Perm [4, 8, 12] →
    ∃ e₁ e₂ e₃ u v z, es = [e₁, e₂, e₃] ∧
      exec (.simpleVfilter16i b t) s = .next z ∧
      exec (.simpleVfilter16 (b + e₁ * s.cfg.bps) t) s = .next u ∧
      exec (.simpleVfilter16 (b + e₂ * s.cfg.bps) t) u = .next v ∧
      exec (.simpleVfilter16 (b + e₃ * s.cfg.bps) t) v = .next z

/-- R140, R135: an admitted `SIMPLE_HFILTER16I` equals the three single-edge commands at columns 4, 8 and 12, in any
order. -/
def Obligations.Hfilter16iIsThreeEdgesInAnyOrder : Prop :=
  ∀ (s : State) (b t : Nat) (es : List Nat), s.cfg.ok → s.pix.wf → s.fault = .none →
    s.admission (.simpleHfilter16i b t) = .none → es.Perm [4, 8, 12] →
    ∃ e₁ e₂ e₃ u v z, es = [e₁, e₂, e₃] ∧
      exec (.simpleHfilter16i b t) s = .next z ∧
      exec (.simpleHfilter16 (b + e₁) t) s = .next u ∧
      exec (.simpleHfilter16 (b + e₂) t) u = .next v ∧
      exec (.simpleHfilter16 (b + e₃) t) v = .next z

/-- R129: on all samples the staged filter equals the closed form without the signed detour. -/
def Obligations.FilterEqualsClosedForm : Prop :=
  ∀ p1 p0 q0 q1 : Sample,
    signedSample q0 - signedSample p0 = (q0.toNat : Int) - p0.toNat ∧
    signedSample p1 - signedSample q1 = (p1.toNat : Int) - q1.toNat ∧
    (∀ f : Int, satS8 (signedSample p0 + f) + 128 = satU8 (p0.toNat + f)) ∧
    filterDelta p1 p0 q0 q1 =
      satS8 (satS8 ((p1.toNat : Int) - q1.toNat) + 3 * ((q0.toNat : Int) - p0.toNat)) ∧
    ∀ delta : Int, -128 ≤ delta → delta ≤ 127 →
      ((filteredP p0 delta).toNat : Int) = satU8 (p0.toNat + sar (satS8 (delta + 3)) 3) ∧
      ((filteredQ q0 delta).toNat : Int) = satU8 (q0.toNat - sar (satS8 (delta + 4)) 3)

/-- R126: the mask saturates twice at 255; for `T <= 254` it is the unsaturated comparison; for `T = 255` it is true of
every input. -/
def Obligations.MaskSaturatesAt255 : Prop :=
  (∀ (p1 p0 q0 q1 : Sample) (t : Nat), filterMask p1 p0 q0 q1 t = true ↔
    min 255 (min 255 (2 * |(p0.toNat : Int) - q0.toNat|) + sar |(p1.toNat : Int) - q1.toNat| 1) ≤ t) ∧
  (∀ (p1 p0 q0 q1 : Sample) (t : Nat), t ≤ 254 →
    (filterMask p1 p0 q0 q1 t = true ↔
      2 * |(p0.toNat : Int) - q0.toNat| + sar |(p1.toNat : Int) - q1.toNat| 1 ≤ t)) ∧
  (∀ p1 p0 q0 q1 : Sample, filterMask p1 p0 q0 q1 255 = true)

/-- R138: with the mask true, when a position changes; `delta` in -3..3 leaves it as it was. -/
def Obligations.PassingPositionChangesExactly : Prop :=
  ∀ (p1 p0 q0 q1 : Sample) (t : Nat), filterMask p1 p0 q0 q1 t = true →
    ((filt p1 p0 q0 q1 t).2 ≠ q0 ↔
      (4 ≤ filterDelta p1 p0 q0 q1 ∧ q0 ≠ 0) ∨ (filterDelta p1 p0 q0 q1 ≤ -5 ∧ q0 ≠ 255)) ∧
    ((filt p1 p0 q0 q1 t).1 ≠ p0 ↔
      (5 ≤ filterDelta p1 p0 q0 q1 ∧ p0 ≠ 255) ∨ (filterDelta p1 p0 q0 q1 ≤ -4 ∧ p0 ≠ 0)) ∧
    (-3 ≤ filterDelta p1 p0 q0 q1 → filterDelta p1 p0 q0 q1 ≤ 3 → filt p1 p0 q0 q1 t = (p0, q0))

/-- R137: with `T = 0` the mask is true exactly when `p0 = q0` and `|p1 - q1| <= 1`, and no filter command changes any
pixel. -/
def Obligations.ThresholdZeroChangesNothing : Prop :=
  (∀ p1 p0 q0 q1 : Sample,
    filterMask p1 p0 q0 q1 0 = true ↔ p0 = q0 ∧ |(p1.toNat : Int) - q1.toNat| ≤ 1) ∧
  (∀ (s t : State) (b : Nat) (i : Instr), s.pix.wf →
    i ∈ [.simpleVfilter16 b 0, .simpleHfilter16 b 0, .simpleVfilter16i b 0, .simpleHfilter16i b 0] →
    exec i s = .next t → t.pix = s.pix)

/-- R130, R136: where the mask fails, the pair that `FILT` returns is `p0` and `q0` as they were; else `p0` moves at most
15 up or 16 down and `q0` at most 16 up or 15 down. That no other sample is written is said by the four filter
contracts. -/
def Obligations.FilterMovesP0AndQ0ByAtMostSixteen : Prop :=
  ∀ (p1 p0 q0 q1 : Sample) (t : Nat),
    (filterMask p1 p0 q0 q1 t = false → filt p1 p0 q0 q1 t = (p0, q0)) ∧
    -16 ≤ ((filt p1 p0 q0 q1 t).1.toNat : Int) - p0.toNat ∧
    ((filt p1 p0 q0 q1 t).1.toNat : Int) - p0.toNat ≤ 15 ∧
    -15 ≤ ((filt p1 p0 q0 q1 t).2.toNat : Int) - q0.toNat ∧
    ((filt p1 p0 q0 q1 t).2.toNat : Int) - q0.toNat ≤ 16

/-! ## The whole machine -/

/-- Every step keeps the invariant: a legal configuration, canonical memories inside their spaces (R35, R36), and every
core's latch consistent with its initialisation (R157, R159, R160). The clause that a core latched `RACE` is initialised
is the model's choice: it rests on `RACE` being tested last (log entry 7), which R157 leaves open. -/
def Obligations.StepKeepsInvariant : Prop :=
  ∀ s t : State, s.Inv → step s = .next t → t.Inv

/-- The invariant holds after reset, for every configuration R6 allows; and of the model's own `State.reset`. -/
def Obligations.InvariantHoldsAtReset : Prop :=
  (∀ cfg : Config, cfg.ok → (State.resetOf cfg [] []).Inv) ∧ State.reset.Inv
end

