-- ==== Sys2Proof/Laws/Arithmetic.lean ====
section
/-! SUPPORT. What the saturations and the conversions between integers and stored patterns give. -/

namespace Sys2Proof.Machine

theorem satU8_bounds (v : Int) : 0 ≤ satU8 v ∧ satU8 v ≤ 255 := by unfold satU8 clamp; split_ifs <;> omega

theorem satS8_bounds (v : Int) : -128 ≤ satS8 v ∧ satS8 v ≤ 127 := by unfold satS8 clamp; split_ifs <;> omega

theorem satS16_bounds (v : Int) : -32768 ≤ satS16 v ∧ satS16 v ≤ 32767 := by
  unfold satS16 clamp; split_ifs <;> omega

/-- A stored sample reads as the saturated value. -/
theorem toNat_sampleOf (v : Int) : ((sampleOf v).toNat : Int) = satU8 v := by
  have := satU8_bounds v
  rw [sampleOf, BitVec.toNat_ofInt]
  omega

/-- A stored coefficient reads as the saturated value. -/
theorem toInt_coefOf (v : Int) : (coefOf v).toInt = satS16 v := by
  have := satS16_bounds v
  rw [coefOf, BitVec.toInt_ofInt, Int.bmod_def]
  split <;> omega

theorem toNat_accumulate (p : Sample) (res : Int) : ((accumulate p res).toNat : Int) = satU8 (p.toNat + res) :=
  toNat_sampleOf _

/-- `sext_8(u ^ 0x80) = u - 128` (R127). -/
theorem signedSample_eq (u : Sample) : signedSample u = (u.toNat : Int) - 128 := by
  revert u; decide

/-- Converting back undoes the conversion (R128). -/
theorem unsignedSample_signedSample (u : Sample) : unsignedSample (signedSample u) = u := by
  rw [unsignedSample, signedSample, BitVec.ofInt_toInt, BitVec.xor_assoc, BitVec.xor_self, BitVec.xor_zero]

/-- A value of signed space is stored as the sample 128 above it (R128). -/
theorem toNat_unsignedSample (v : Int) (h : -128 ≤ v) (h' : v ≤ 127) :
    ((unsignedSample v).toNat : Int) = v + 128 := by
  have hu : signedSample (BitVec.ofNat 8 (v + 128).toNat) = v := by
    rw [signedSample_eq, BitVec.toNat_ofNat]; omega
  have := unsignedSample_signedSample (BitVec.ofNat 8 (v + 128).toNat)
  rw [hu] at this
  rw [this, BitVec.toNat_ofNat]; omega

theorem filterDelta_bounds (p1 p0 q0 q1 : Sample) :
    -128 ≤ filterDelta p1 p0 q0 q1 ∧ filterDelta p1 p0 q0 q1 ≤ 127 := satS8_bounds _

/-- Two samples are equal when they read as the same number. -/
theorem sample_eq_iff (u v : Sample) : u = v ↔ (u.toNat : Int) = v.toNat := by
  rw [← BitVec.toNat_inj]; omega

theorem filt_of_mask {p1 p0 q0 q1 : Sample} {t : Nat} (h : filterMask p1 p0 q0 q1 t = true) :
    filt p1 p0 q0 q1 t =
      (filteredP p0 (filterDelta p1 p0 q0 q1), filteredQ q0 (filterDelta p1 p0 q0 q1)) := by simp [filt, h]

theorem filt_of_not_mask {p1 p0 q0 q1 : Sample} {t : Nat} (h : filterMask p1 p0 q0 q1 t = false) :
    filt p1 p0 q0 q1 t = (p0, q0) := by simp [filt, h]

@[simp] theorem Block.get_ofFn (f : Nat → Nat → Int) (r k : Nat) (hr : r < 4) (hk : k < 4) :
    (Block.ofFn f).get r k = f r k := by
  interval_cases r <;> interval_cases k <;> rfl

end Sys2Proof.Machine
end

