-- ==== Sys2Proof/Laws/Memory.lean ====
section
/-! SUPPORT. The laws of a canonical memory. -/

namespace Sys2Proof.Machine

variable {n : Nat}

@[simp] theorem Mem.read_nil (a : Nat) : Mem.read ([] : Mem n) a = Mem.unlisted n := rfl

theorem Mem.read_cons (b : Nat) (u : BitVec n) (m : Mem n) (a : Nat) :
    Mem.read ((b, u) :: m) a = if a = b then u else Mem.read m a := rfl

/-- An address below every listed one reads as unlisted. -/
theorem Mem.read_of_lt (m : Mem n) (a : Nat) (h : ∀ c ∈ m, a < c.1) : m.read a = Mem.unlisted n := by
  induction m with
  | nil => rfl
  | cons c m ih =>
    obtain ⟨b, u⟩ := c
    have hb : a < b := h _ (List.mem_cons_self ..)
    rw [Mem.read_cons, if_neg (by omega)]
    exact ih fun c hc => h c (List.mem_cons_of_mem _ hc)

theorem Mem.read_consCell_same (a : Nat) (v : BitVec n) (m : Mem n) (h : ∀ c ∈ m, a < c.1) :
    (Mem.consCell a v m).read a = v := by
  unfold Mem.consCell
  split
  · rename_i hv; rw [Mem.read_of_lt m a h, hv]
  · simp [Mem.read_cons]

theorem Mem.read_consCell_other (a x : Nat) (v : BitVec n) (m : Mem n) (h : x ≠ a) :
    (Mem.consCell a v m).read x = m.read x := by
  unfold Mem.consCell
  split
  · rfl
  · simp [Mem.read_cons, h]

/-- A read after a write to the same cell gives the value written. -/
theorem Mem.read_write_same (m : Mem n) (a : Nat) (v : BitVec n) (h : m.wf) : (m.write a v).read a = v := by
  induction m with
  | nil => exact Mem.read_consCell_same a v [] (by simp)
  | cons c m ih =>
    obtain ⟨b, u⟩ := c
    obtain ⟨hs, hn⟩ := h
    rw [List.pairwise_cons] at hs
    unfold Mem.write
    split
    · rename_i hab
      refine Mem.read_consCell_same a v _ fun c hc => ?_
      rcases List.mem_cons.mp hc with rfl | hc
      · exact hab
      · exact lt_trans hab (hs.1 c hc)
    · split
      · rename_i hab
        subst hab
        exact Mem.read_consCell_same a v m hs.1
      · rename_i hab
        rw [Mem.read_cons, if_neg hab]
        exact ih ⟨hs.2, fun c hc => hn c (List.mem_cons_of_mem _ hc)⟩

/-- A write leaves every other cell alone. -/
theorem Mem.read_write_other (m : Mem n) (a x : Nat) (v : BitVec n) (h : x ≠ a) :
    (m.write a v).read x = m.read x := by
  induction m with
  | nil => exact Mem.read_consCell_other a x v [] h
  | cons c m ih =>
    obtain ⟨b, u⟩ := c
    unfold Mem.write
    split
    · exact Mem.read_consCell_other a x v _ h
    · split
      · rename_i hab
        subst hab
        rw [Mem.read_consCell_other a x v m h, Mem.read_cons, if_neg h]
      · rw [Mem.read_cons, Mem.read_cons, ih]

/-- What a write leaves in the list: the written cell, or what was there. -/
theorem Mem.mem_write (m : Mem n) (a : Nat) (v : BitVec n) (c : Nat × BitVec n) (hc : c ∈ m.write a v) :
    c = (a, v) ∧ v ≠ Mem.unlisted n ∨ c ∈ m := by
  induction m with
  | nil =>
    unfold Mem.write Mem.consCell at hc
    split at hc
    · simp at hc
    · simp_all
  | cons d m ih =>
    obtain ⟨b, u⟩ := d
    unfold Mem.write at hc
    split at hc
    · unfold Mem.consCell at hc
      split at hc
      · exact .inr hc
      · rcases List.mem_cons.mp hc with rfl | hc
        · exact .inl ⟨rfl, ‹_›⟩
        · exact .inr hc
    · split at hc
      · unfold Mem.consCell at hc
        split at hc
        · exact .inr (List.mem_cons_of_mem _ hc)
        · rcases List.mem_cons.mp hc with rfl | hc
          · exact .inl ⟨rfl, ‹_›⟩
          · exact .inr (List.mem_cons_of_mem _ hc)
      · rcases List.mem_cons.mp hc with rfl | hc
        · exact .inr (List.mem_cons_self ..)
        · rcases ih hc with h | h
          · exact .inl h
          · exact .inr (List.mem_cons_of_mem _ h)

theorem Mem.pairwise_consCell (a : Nat) (v : BitVec n) (m : Mem n)
    (hs : m.Pairwise fun c d => c.1 < d.1) (h : ∀ c ∈ m, a < c.1) :
    (Mem.consCell a v m).Pairwise fun c d => c.1 < d.1 := by
  unfold Mem.consCell
  split
  · exact hs
  · exact List.pairwise_cons.mpr ⟨h, hs⟩

/-- Every write keeps the canonical form. -/
theorem Mem.wf_write (m : Mem n) (a : Nat) (v : BitVec n) (h : m.wf) : (m.write a v).wf := by
  refine ⟨?_, fun c hc => ?_⟩
  · induction m with
    | nil => exact Mem.pairwise_consCell a v [] List.Pairwise.nil (by simp)
    | cons c m ih =>
      obtain ⟨b, u⟩ := c
      obtain ⟨hs, hn⟩ := h
      have hs' := List.pairwise_cons.mp hs
      unfold Mem.write
      split
      · rename_i hab
        refine Mem.pairwise_consCell a v _ hs fun c hc => ?_
        rcases List.mem_cons.mp hc with rfl | hc
        · exact hab
        · exact lt_trans hab (hs'.1 c hc)
      · split
        · rename_i hab
          subst hab
          exact Mem.pairwise_consCell a v m hs'.2 hs'.1
        · rename_i h1 h2
          refine List.pairwise_cons.mpr
            ⟨fun c hc => ?_, ih ⟨hs'.2, fun c hc => hn c (List.mem_cons_of_mem _ hc)⟩⟩
          rcases Mem.mem_write m a v c hc with ⟨rfl, -⟩ | hc
          · show b < a; omega
          · exact hs'.1 c hc
  · rcases Mem.mem_write m a v c hc with ⟨rfl, hv⟩ | hc
    · exact hv
    · exact h.2 c hc

theorem Mem.within_write (m : Mem n) (a : Nat) (v : BitVec n) (size : Nat) (h : m.within size)
    (ha : a < size) : (m.write a v).within size := by
  intro c hc
  rcases Mem.mem_write m a v c hc with ⟨rfl, -⟩ | hc
  · exact ha
  · exact h c hc

theorem Mem.wf_nil : Mem.wf ([] : Mem n) := ⟨List.Pairwise.nil, by simp⟩

theorem Mem.writeAll_cons (m : Mem n) (c : Nat × BitVec n) (l : List (Nat × BitVec n)) :
    m.writeAll (c :: l) = (m.write c.1 c.2).writeAll l := rfl

theorem Mem.writeAll_append (m : Mem n) (l l' : List (Nat × BitVec n)) :
    m.writeAll (l ++ l') = (m.writeAll l).writeAll l' := List.foldl_append ..

theorem Mem.wf_writeAll (m : Mem n) (l : List (Nat × BitVec n)) (h : m.wf) : (m.writeAll l).wf := by
  induction l generalizing m with
  | nil => exact h
  | cons c l ih => exact ih _ (Mem.wf_write m c.1 c.2 h)

theorem Mem.within_writeAll (m : Mem n) (l : List (Nat × BitVec n)) (size : Nat) (h : m.within size)
    (hl : ∀ c ∈ l, c.1 < size) : (m.writeAll l).within size := by
  induction l generalizing m with
  | nil => exact h
  | cons c l ih =>
    exact ih _ (Mem.within_write m c.1 c.2 size h (hl c (List.mem_cons_self ..)))
      fun d hd => hl d (List.mem_cons_of_mem _ hd)

/-- A cell that a list of writes does not name keeps its value. -/
theorem Mem.read_writeAll_other (m : Mem n) (l : List (Nat × BitVec n)) (x : Nat) (h : ∀ c ∈ l, c.1 ≠ x) :
    (m.writeAll l).read x = m.read x := by
  induction l generalizing m with
  | nil => rfl
  | cons c l ih =>
    rw [Mem.writeAll_cons, ih _ fun d hd => h d (List.mem_cons_of_mem _ hd),
      Mem.read_write_other _ _ _ _ (h c (List.mem_cons_self ..)).symm]

/-- A cell to which every write of the list that names it gives one value `v` reads as `v` afterwards. -/
theorem Mem.read_writeAll_of_mem (m : Mem n) (l : List (Nat × BitVec n)) (x : Nat) (v : BitVec n) (hm : m.wf)
    (hin : (x, v) ∈ l) (huniq : ∀ c ∈ l, c.1 = x → c.2 = v) : (m.writeAll l).read x = v := by
  induction l generalizing m with
  | nil => simp at hin
  | cons c l ih =>
    rw [Mem.writeAll_cons]
    by_cases hl : ∃ d ∈ l, d.1 = x
    · obtain ⟨d, hd, hx⟩ := hl
      have : d = (x, v) := Prod.ext hx (huniq d (List.mem_cons_of_mem _ hd) hx)
      exact ih _ (Mem.wf_write m c.1 c.2 hm) (this ▸ hd) fun e he => huniq e (List.mem_cons_of_mem _ he)
    · push Not at hl
      rw [Mem.read_writeAll_other _ _ _ hl]
      rcases List.mem_cons.mp hin with rfl | hin
      · exact Mem.read_write_same m x v hm
      · exact absurd rfl (hl _ hin)

/-- Two canonical memories that read alike everywhere are equal. -/
theorem Mem.ext_of_read (m m' : Mem n) (h : m.wf) (h' : m'.wf) (hr : ∀ a, m.read a = m'.read a) : m = m' := by
  induction m generalizing m' with
  | nil =>
    cases m' with
    | nil => rfl
    | cons c m' =>
      exact absurd ((hr c.1).symm.trans rfl) (by
        rw [show c = (c.1, c.2) from rfl, Mem.read_cons, if_pos rfl]
        exact h'.2 c (List.mem_cons_self ..))
  | cons c m ih =>
    obtain ⟨b, u⟩ := c
    obtain ⟨hs, hn⟩ := h
    rw [List.pairwise_cons] at hs
    have hu : u ≠ Mem.unlisted n := hn (b, u) (List.mem_cons_self ..)
    cases m' with
    | nil => exact absurd (hr b) (by simpa [Mem.read_cons] using hu)
    | cons d m' =>
      obtain ⟨b', u'⟩ := d
      obtain ⟨hs', hn'⟩ := h'
      rw [List.pairwise_cons] at hs'
      have hu' : u' ≠ Mem.unlisted n := hn' (b', u') (List.mem_cons_self ..)
      have hb : b = b' := by
        by_contra hne
        rcases Nat.lt_or_gt_of_ne hne with hlt | hgt
        · have := hr b
          rw [Mem.read_cons, if_pos rfl, Mem.read_cons, if_neg hne,
            Mem.read_of_lt m' b fun c hc => lt_trans hlt (hs'.1 c hc)] at this
          exact hu this
        · have := hr b'
          rw [Mem.read_cons, if_neg (Ne.symm hne), Mem.read_cons, if_pos rfl,
            Mem.read_of_lt m b' fun c hc => lt_trans hgt (hs.1 c hc)] at this
          exact hu' this.symm
      subst hb
      have hv : u = u' := by
        have := hr b
        rwa [Mem.read_cons, if_pos rfl, Mem.read_cons, if_pos rfl] at this
      subst hv
      refine congrArg _ (ih m' ⟨hs.2, fun c hc => hn c (List.mem_cons_of_mem _ hc)⟩
        ⟨hs'.2, fun c hc => hn' c (List.mem_cons_of_mem _ hc)⟩ fun a => ?_)
      by_cases ha : a = b
      · subst ha
        rw [Mem.read_of_lt m a hs.1, Mem.read_of_lt m' a hs'.1]
      · have := hr a
        rwa [Mem.read_cons, if_neg ha, Mem.read_cons, if_neg ha] at this

/-- Contents from a list are canonical. -/
theorem Mem.wf_ofContents (size : Nat) (l : List (Nat × BitVec n)) : (Mem.ofContents size l).wf :=
  Mem.wf_writeAll [] _ Mem.wf_nil

/-- Contents from a list stay inside the space. -/
theorem Mem.within_ofContents (size : Nat) (l : List (Nat × BitVec n)) : (Mem.ofContents size l).within size :=
  Mem.within_writeAll [] _ size (by intro c hc; simp at hc) fun c hc => by
    simpa using (List.mem_filter.mp hc).2

end Sys2Proof.Machine
end

