-- ==== Sys2Proof/Laws/State.lean ====
section
/-! SUPPORT. One lemma per field per update of the state. -/

namespace Sys2Proof.Machine

variable (s : State)

@[simp] theorem storePix_cfg (l) : (s.storePix l).cfg = s.cfg := rfl
@[simp] theorem storePix_initDone (l) : (s.storePix l).initDone = s.initDone := rfl
@[simp] theorem storePix_fault (l) : (s.storePix l).fault = s.fault := rfl
@[simp] theorem storePix_lower (l) : (s.storePix l).lower = s.lower := rfl
@[simp] theorem storePix_higher (l) : (s.storePix l).higher = s.higher := rfl
@[simp] theorem storePix_pix (l) : (s.storePix l).pix = s.pix.writeAll l := rfl
@[simp] theorem storePix_coef (l) : (s.storePix l).coef = s.coef := rfl
@[simp] theorem storePix_contention (l) : (s.storePix l).contention = s.contention := rfl
@[simp] theorem storePix_host (l) : (s.storePix l).host = s.host := rfl
@[simp] theorem storePix_coefficient (l w) : (s.storePix l).coefficient w = s.coefficient w := rfl
@[simp] theorem storePix_coefBlock (l w) : (s.storePix l).coefBlock w = s.coefBlock w := rfl
@[simp] theorem storePix_cores (l) : (s.storePix l).cores = s.cores := rfl

@[simp] theorem storeCoef_cfg (l) : (s.storeCoef l).cfg = s.cfg := rfl
@[simp] theorem storeCoef_initDone (l) : (s.storeCoef l).initDone = s.initDone := rfl
@[simp] theorem storeCoef_fault (l) : (s.storeCoef l).fault = s.fault := rfl
@[simp] theorem storeCoef_lower (l) : (s.storeCoef l).lower = s.lower := rfl
@[simp] theorem storeCoef_higher (l) : (s.storeCoef l).higher = s.higher := rfl
@[simp] theorem storeCoef_pix (l) : (s.storeCoef l).pix = s.pix := rfl
@[simp] theorem storeCoef_coef (l) : (s.storeCoef l).coef = s.coef.writeAll l := rfl
@[simp] theorem storeCoef_contention (l) : (s.storeCoef l).contention = s.contention := rfl
@[simp] theorem storeCoef_host (l) : (s.storeCoef l).host = s.host := rfl
@[simp] theorem storeCoef_pixel (l a) : (s.storeCoef l).pixel a = s.pixel a := rfl
@[simp] theorem storeCoef_cores (l) : (s.storeCoef l).cores = s.cores := rfl

@[simp] theorem setInitDone_cfg : s.setInitDone.cfg = s.cfg := rfl
@[simp] theorem setInitDone_initDone : s.setInitDone.initDone = true := rfl
@[simp] theorem setInitDone_fault : s.setInitDone.fault = s.fault := rfl
@[simp] theorem setInitDone_lower : s.setInitDone.lower = s.lower := rfl
@[simp] theorem setInitDone_higher : s.setInitDone.higher = s.higher := rfl
@[simp] theorem setInitDone_pix : s.setInitDone.pix = s.pix := rfl
@[simp] theorem setInitDone_coef : s.setInitDone.coef = s.coef := rfl
@[simp] theorem setInitDone_contention : s.setInitDone.contention = s.contention := rfl
@[simp] theorem setInitDone_host : s.setInitDone.host = s.host := rfl

@[simp] theorem applyReset_cfg (p c) : (s.applyReset p c).cfg = s.cfg := rfl
@[simp] theorem applyReset_initDone (p c) : (s.applyReset p c).initDone = false := rfl
@[simp] theorem applyReset_fault (p c) : (s.applyReset p c).fault = .none := rfl
@[simp] theorem applyReset_lower (p c) :
    (s.applyReset p c).lower = s.lower.map fun _ => CoreState.reset := rfl
@[simp] theorem applyReset_higher (p c) :
    (s.applyReset p c).higher = s.higher.map fun _ => CoreState.reset := rfl
@[simp] theorem applyReset_pix (p c) :
    (s.applyReset p c).pix = Mem.ofContents s.cfg.pixSize p := rfl
@[simp] theorem applyReset_coef (p c) :
    (s.applyReset p c).coef = Mem.ofContents s.cfg.coefSize c := rfl
@[simp] theorem applyReset_contention (p c) : (s.applyReset p c).contention = [] := rfl
@[simp] theorem applyReset_host (p c) : (s.applyReset p c).host = s.host := rfl

/-- Taking a fault on a clear latch writes the latch and nothing else. -/
theorem raise_of_clear (c : FaultClass) (h : s.fault = .none) : s.raise c = { s with fault := c } := by
  simp [State.raise, h]

/-- A latch that is set keeps its value. -/
theorem raise_of_set (c : FaultClass) (h : s.fault ≠ .none) : s.raise c = s := by
  simp [State.raise, h]

@[simp] theorem raise_cfg (c) : (s.raise c).cfg = s.cfg := by unfold State.raise; split <;> rfl
@[simp] theorem raise_initDone (c) : (s.raise c).initDone = s.initDone := by
  unfold State.raise; split <;> rfl
@[simp] theorem raise_lower (c) : (s.raise c).lower = s.lower := by unfold State.raise; split <;> rfl
@[simp] theorem raise_higher (c) : (s.raise c).higher = s.higher := by unfold State.raise; split <;> rfl
@[simp] theorem raise_pix (c) : (s.raise c).pix = s.pix := by unfold State.raise; split <;> rfl
@[simp] theorem raise_coef (c) : (s.raise c).coef = s.coef := by unfold State.raise; split <;> rfl
@[simp] theorem raise_contention (c) : (s.raise c).contention = s.contention := by
  unfold State.raise; split <;> rfl
@[simp] theorem raise_host (c) : (s.raise c).host = s.host := by unfold State.raise; split <;> rfl

@[simp] theorem withFetchWord_host (n w) :
    (s.withFetchWord n w).host = .command s.current (BitVec.ofNat 64 (w % 2 ^ n)) [] :: s.host := rfl

end Sys2Proof.Machine
end

