-- ==== Sys2Proof/Laws/Execution.lean ====
section
/-! SUPPORT. What the shared operations can do: one lemma for carrying out a command, one for all meanings at once,
one for choosing a core. -/

namespace Sys2Proof.Machine

/-- Carrying out a command ends in a next state, and in one of three: the latch was set; a fault was taken; the
command was admitted. -/
theorem carryOut_cases (s d : State) (i : Instr) :
    (s.fault ≠ .none ∧ s.carryOut i d = .next s) ∨
    (s.fault = .none ∧ s.admission i ≠ .none ∧
      s.carryOut i d = .next { s with fault := s.admission i }) ∨
    (s.fault = .none ∧ s.admission i = .none ∧ s.carryOut i d = .next d) := by
  by_cases h : s.fault = .none
  · by_cases ha : s.admission i = .none
    · exact .inr (.inr ⟨h, ha, by simp [State.carryOut, h, ha]⟩)
    · exact .inr (.inl ⟨h, ha, by simp [State.carryOut, h, ha, raise_of_clear s _ h]⟩)
  · exact .inl ⟨h, by simp [State.carryOut, h]⟩

theorem carryOut_of_latched (s d : State) (i : Instr) (h : s.fault ≠ .none) :
    s.carryOut i d = .next s := by simp [State.carryOut, h]

theorem carryOut_of_admitted (s d : State) (i : Instr) (h : s.fault = .none) (ha : s.admission i = .none) :
    s.carryOut i d = .next d := by simp [State.carryOut, h, ha]

theorem carryOut_of_fault (s d : State) (i : Instr) (h : s.fault = .none) (ha : s.admission i ≠ .none) :
    s.carryOut i d = .next { s with fault := s.admission i } := by
  simp [State.carryOut, h, ha, raise_of_clear s _ h]

/-- The pixel cells a command stores when it is admitted. -/
def pixCells (s : State) : Instr → List (Nat × Sample)
  | .init => []
  | .transform a b => blockCells s b (residual (s.coefBlock a))
  | .transform2 a b =>
    blockCells s b (residual (s.coefBlock a)) ++ blockCells s (b + 4) (residual (s.coefBlock (a + 16)))
  | .transformDc a b => blockCells s b (dcResidual (s.coefficient a))
  | .transformAc3 a b =>
    blockCells s b (ac3Residual (s.coefficient a) (s.coefficient (a + 1)) (s.coefficient (a + 4)))
  | .transformWht _ _ => []
  | .simpleVfilter16 b t => edgeCells s b 1 s.cfg.bps t
  | .simpleHfilter16 b t => edgeCells s b s.cfg.bps 1 t
  | .simpleVfilter16i b t => innerEdgeCells s b 1 s.cfg.bps t
  | .simpleHfilter16i b t => innerEdgeCells s b s.cfg.bps 1 t

/-- The coefficient cells a command stores when it is admitted. -/
def coefCells (s : State) : Instr → List (Nat × Coef)
  | .transformWht a b => whtCells b (s.coefBlock a)
  | _ => []

/-- The state an admitted command leaves. -/
def afterCommand (s : State) (i : Instr) : State :=
  { s with
    initDone := if i = .init then true else s.initDone
    pix := s.pix.writeAll (pixCells s i)
    coef := s.coef.writeAll (coefCells s i) }

/-- Every meaning carries its command out, and what it does when admitted is to store its cells (or, for `INIT`, to
set `INIT_DONE`). -/
theorem exec_eq_carryOut (s : State) (i : Instr) : exec i s = s.carryOut i (afterCommand s i) := by
  cases i <;> rfl

/-- What `exec` can do, for every command. -/
theorem exec_cases (s : State) (i : Instr) :
    (s.fault ≠ .none ∧ exec i s = .next s) ∨
    (s.fault = .none ∧ s.admission i ≠ .none ∧ exec i s = .next { s with fault := s.admission i }) ∨
    (s.fault = .none ∧ s.admission i = .none ∧ exec i s = .next (afterCommand s i)) := by
  rw [exec_eq_carryOut]; exact carryOut_cases s _ i

@[simp] theorem afterCommand_cfg (s : State) (i : Instr) : (afterCommand s i).cfg = s.cfg := rfl
@[simp] theorem afterCommand_fault (s : State) (i : Instr) : (afterCommand s i).fault = s.fault := rfl
@[simp] theorem afterCommand_lower (s : State) (i : Instr) : (afterCommand s i).lower = s.lower := rfl
@[simp] theorem afterCommand_higher (s : State) (i : Instr) : (afterCommand s i).higher = s.higher := rfl
@[simp] theorem afterCommand_contention (s : State) (i : Instr) :
    (afterCommand s i).contention = s.contention := rfl
@[simp] theorem afterCommand_host (s : State) (i : Instr) : (afterCommand s i).host = s.host := rfl
@[simp] theorem afterCommand_pix (s : State) (i : Instr) :
    (afterCommand s i).pix = s.pix.writeAll (pixCells s i) := rfl
@[simp] theorem afterCommand_coef (s : State) (i : Instr) :
    (afterCommand s i).coef = s.coef.writeAll (coefCells s i) := rfl

theorem afterCommand_initDone (s : State) (i : Instr) :
    (afterCommand s i).initDone = if i = .init then true else s.initDone := rfl

/-- A command that stores no coefficient leaves every field but `PIX`. -/
theorem afterCommand_eq_storePix (s : State) (i : Instr) (hi : i ≠ .init) (hc : coefCells s i = []) :
    afterCommand s i = s.storePix (pixCells s i) := by
  rw [afterCommand, if_neg hi, hc]; rfl

/-- A command that stores no pixel leaves every field but `COEF`. -/
theorem afterCommand_eq_storeCoef (s : State) (i : Instr) (hi : i ≠ .init) (hp : pixCells s i = []) :
    afterCommand s i = s.storeCoef (coefCells s i) := by
  rw [afterCommand, if_neg hi, hp]; rfl

/-- When `INIT` or a data command is admitted, in the terms of R158. -/
theorem admission_eq_none (s : State) (i : Instr) :
    s.admission i = .none ↔ i = .init ∨
      (s.initDone = true ∧ inBounds s.cfg i = true ∧ s.sparse i = true ∧ s.raced i = false) := by
  unfold State.admission
  by_cases hi : i = .init
  · simp [hi]
  · cases h1 : s.initDone <;> cases h2 : inBounds s.cfg i <;> cases h3 : s.sparse i <;>
      cases h4 : s.raced i <;> simp [hi]

/-- The four outcomes of a data command on a clear latch when no other agent interferes, in the order of R157. -/
theorem exec_outcome (s : State) (i : Instr) (hi : i ≠ .init) (hf : s.fault = .none) (hr : s.raced i = false) :
    (s.initDone = false → exec i s = .next { s with fault := .notInitialized }) ∧
    (s.initDone = true → inBounds s.cfg i = false → exec i s = .next { s with fault := .bounds }) ∧
    (s.initDone = true → inBounds s.cfg i = true → s.sparse i = false →
      exec i s = .next { s with fault := .sparsity }) ∧
    (s.initDone = true → inBounds s.cfg i = true → s.sparse i = true →
      exec i s = .next (afterCommand s i)) := by
  rw [exec_eq_carryOut]
  refine ⟨fun h1 => ?_, fun h1 h2 => ?_, fun h1 h2 h3 => ?_, fun h1 h2 h3 => ?_⟩
  · have ha : s.admission i = .notInitialized := by simp [State.admission, hi, h1]
    rw [carryOut_of_fault _ _ _ hf (by simp [ha]), ha]
  · have ha : s.admission i = .bounds := by simp [State.admission, hi, h1, h2]
    rw [carryOut_of_fault _ _ _ hf (by simp [ha]), ha]
  · have ha : s.admission i = .sparsity := by simp [State.admission, hi, h1, h2, h3]
    rw [carryOut_of_fault _ _ _ hf (by simp [ha]), ha]
  · exact carryOut_of_admitted _ _ _ hf ((admission_eq_none s i).mpr (.inr ⟨h1, h2, h3, hr⟩))

/-! ## Cores -/

@[simp] theorem cores_length (s : State) : s.cores.length = s.lower.length + s.higher.length + 1 := by
  simp [State.cores]; omega

theorem cores_current (s : State) : s.cores[s.current]? = some ⟨s.initDone, s.fault⟩ := by
  simp [State.cores, State.current]

/-- Choosing a core renumbers nothing: the list of cores is the same, the chosen one is current, and nothing but the
place in the list changes. -/
theorem select_eq_some {s t : State} {k : Nat} (h : s.select k = some t) :
    t.cores = s.cores ∧ t.current = k ∧ t.cfg = s.cfg ∧ t.pix = s.pix ∧ t.coef = s.coef ∧
      t.contention = s.contention ∧ t.host = s.host := by
  unfold State.select at h
  split at h
  · simp at h
  · rename_i c hc
    obtain ⟨hk, hget⟩ := List.getElem?_eq_some_iff.mp hc
    obtain rfl := (Option.some.inj h).symm
    refine ⟨?_, ?_, rfl, rfl, rfl, rfl, rfl⟩
    · show s.cores.take k ++ (⟨c.initDone, c.fault⟩ : CoreState) :: s.cores.drop (k + 1) = s.cores
      have : (⟨c.initDone, c.fault⟩ : CoreState) = s.cores[k] := hget.symm
      rw [this, List.cons_getElem_drop_succ, List.take_append_drop]
    · show (s.cores.take k).length = k
      rw [List.length_take]; omega

/-- Choosing the current core changes nothing. -/
theorem select_current (s : State) : s.select s.current = some s := by
  unfold State.select
  rw [cores_current]
  simp [State.cores, State.current]

/-- The private state of a core after its two fields are set, the others being as they were. -/
theorem cores_getElem_of_same_others {s t : State} (hl : t.lower = s.lower) (hh : t.higher = s.higher) (j : Nat) :
    t.cores[j]? = if j = s.current then some ⟨t.initDone, t.fault⟩ else s.cores[j]? := by
  unfold State.cores State.current
  rw [hl, hh]
  split
  · rename_i h; simp [h]
  · rename_i h
    rcases Nat.lt_or_gt_of_ne h with h | h
    · rw [List.getElem?_append_left h, List.getElem?_append_left h]
    · obtain ⟨m, rfl⟩ := Nat.exists_eq_add_of_lt h
      rw [List.getElem?_append_right (by omega), List.getElem?_append_right (by omega)]
      simp [show s.lower.length + m + 1 - s.lower.length = m + 1 by omega]

/-- What a word does to the current core, other than an admitted effect or nothing, is to latch a fault: a word
ends in a next state with the same configuration, other cores, noted accesses and host list. -/
theorem runWord_cases (s : State) (w : Word) :
    (s.fault ≠ .none ∧ s.runWord w = .next s) ∨
    (∃ c, s.fault = .none ∧ c ≠ .none ∧ s.runWord w = .next { s with fault := c } ∧
      ((∃ r, decode w = .illegal r ∧ c = .illegalCommand) ∨
        ∃ i, decode w = .command i ∧ c = s.admission i)) ∨
    (∃ i, decode w = .command i ∧ s.fault = .none ∧ s.admission i = .none ∧
      s.runWord w = .next (afterCommand s i)) := by
  unfold State.runWord
  cases hd : decode w with
  | command i =>
    rcases exec_cases s i with ⟨h, he⟩ | ⟨h, ha, he⟩ | ⟨h, ha, he⟩
    · exact .inl ⟨h, he⟩
    · exact .inr (.inl ⟨_, h, ha, he, .inr ⟨i, rfl, rfl⟩⟩)
    · exact .inr (.inr ⟨i, rfl, h, ha, he⟩)
  | illegal r =>
    by_cases h : s.fault = .none
    · exact .inr (.inl ⟨.illegalCommand, h, by decide, by simp [raise_of_clear s _ h], .inl ⟨r, rfl, rfl⟩⟩)
    · exact .inl ⟨h, by simp [raise_of_set s _ h]⟩

end Sys2Proof.Machine
end

