-- ==== Sys2Proof/Laws/Footprint.lean ====
section
/-! SUPPORT. What is in a footprint, that an admitted command's cells are its write footprint, and where two grid
addresses meet. -/

namespace Sys2Proof.Machine

theorem mem_run {base x : Int} {n : Nat} : x ∈ run base n ↔ ∃ m : Nat, m < n ∧ x = base + m := by
  simp only [run, List.mem_map, List.mem_range]
  constructor
  · rintro ⟨m, h, rfl⟩; exact ⟨m, h, rfl⟩
  · rintro ⟨m, h, rfl⟩; exact ⟨m, h, rfl⟩

theorem mem_grid {base su sv x : Int} {us vs : List Int} :
    x ∈ grid base us su vs sv ↔ ∃ u ∈ us, ∃ v ∈ vs, x = base + u * su + v * sv := by
  simp only [grid, List.mem_flatMap, List.mem_map]
  constructor
  · rintro ⟨u, hu, v, hv, rfl⟩; exact ⟨u, hu, v, hv, rfl⟩
  · rintro ⟨u, hu, v, hv, rfl⟩; exact ⟨u, hu, v, hv, rfl⟩

theorem mem_region {bps b cols : Nat} {x : Int} :
    x ∈ region bps b cols ↔ ∃ r < 4, ∃ k < cols, x = (blockAddr bps b r k : Nat) := by
  simp only [region, mem_grid, mem_run, blockAddr]
  constructor
  · rintro ⟨_, ⟨r, hr, rfl⟩, _, ⟨k, hk, rfl⟩, rfl⟩
    exact ⟨r, hr, k, hk, by push_cast; ring⟩
  · rintro ⟨r, hr, k, hk, rfl⟩
    exact ⟨r, ⟨r, hr, by ring⟩, k, ⟨k, hk, by ring⟩, by push_cast; ring⟩

theorem mem_edgeCellsAt {e ps ss : Nat} {taps : List Int} {x : Int} :
    x ∈ edgeCellsAt e ps ss taps ↔ ∃ i < 16, ∃ j ∈ taps, x = (edgeAddr e ps i : Nat) + j * ss := by
  simp only [edgeCellsAt, mem_grid, mem_run, edgeAddr]
  constructor
  · rintro ⟨_, ⟨i, hi, rfl⟩, j, hj, rfl⟩
    exact ⟨i, hi, j, hj, by push_cast; ring⟩
  · rintro ⟨i, hi, j, hj, rfl⟩
    exact ⟨i, ⟨i, hi, by ring⟩, j, hj, by push_cast; ring⟩

theorem mem_innerCellsAt {b ps ss : Nat} {taps : List Int} {x : Int} :
    x ∈ innerCellsAt b ps ss taps ↔
      ∃ e ∈ innerEdges, ∃ i < 16, ∃ j ∈ taps, x = (edgeAddr (b + e * ss) ps i : Nat) + j * ss := by
  simp only [innerCellsAt, List.mem_flatMap, mem_edgeCellsAt]

theorem mem_slots {b : Nat} {x : Int} :
    x ∈ grid b (run 0 16) 16 [0] 1 ↔ ∃ n < 16, x = (slotAddr b n : Nat) := by
  simp only [mem_grid, mem_run, slotAddr]
  constructor
  · rintro ⟨_, ⟨n, hn, rfl⟩, v, hv, rfl⟩
    obtain rfl := List.mem_singleton.mp hv
    exact ⟨n, hn, by push_cast; ring⟩
  · rintro ⟨n, hn, rfl⟩
    exact ⟨n, ⟨n, hn, by ring⟩, 0, by simp, by push_cast; ring⟩

theorem inSpace_iff {size : Nat} {l : List Int} : inSpace size l = true ↔ ∀ a ∈ l, 0 ≤ a ∧ a < (size : Int) := by
  simp [inSpace]

theorem inBounds_iff {cfg : Config} {i : Instr} :
    inBounds cfg i = true ↔
      (∀ a ∈ (footprint cfg.bps i).coefRead, 0 ≤ a ∧ a < (cfg.coefSize : Int)) ∧
      (∀ a ∈ (footprint cfg.bps i).coefWrite, 0 ≤ a ∧ a < (cfg.coefSize : Int)) ∧
      (∀ a ∈ (footprint cfg.bps i).pixRead, 0 ≤ a ∧ a < (cfg.pixSize : Int)) ∧
      (∀ a ∈ (footprint cfg.bps i).pixWrite, 0 ≤ a ∧ a < (cfg.pixSize : Int)) := by
  simp only [inBounds, Bool.and_eq_true, inSpace_iff, and_assoc]

/-! ## When the cells of a shape lie in a space -/

theorem inSpace_nil (size : Nat) : inSpace size [] = true := rfl

theorem inSpace_run_iff {size n a : Nat} (hn : 0 < n) : inSpace size (run a n) = true ↔ a + (n - 1) < size := by
  rw [inSpace_iff]
  constructor
  · intro h
    have := h _ (mem_run.mpr ⟨n - 1, by omega, rfl⟩)
    omega
  · rintro h x hx
    obtain ⟨m, hm, rfl⟩ := mem_run.mp hx
    omega

theorem inSpace_region_iff {size bps b cols : Nat} (hc : 0 < cols) :
    inSpace size (region bps b cols) = true ↔ b + 3 * bps + (cols - 1) < size := by
  rw [inSpace_iff]
  constructor
  · intro h
    have := h _ (mem_region.mpr ⟨3, by omega, cols - 1, by omega, rfl⟩)
    unfold blockAddr at this; omega
  · rintro h x hx
    obtain ⟨r, hr, k, hk, rfl⟩ := mem_region.mp hx
    have : r * bps ≤ 3 * bps := Nat.mul_le_mul_right _ (by omega)
    unfold blockAddr; omega

theorem inSpace_slots_iff {size b : Nat} :
    inSpace size (grid b (run 0 16) 16 [0] 1) = true ↔ b + 240 < size := by
  rw [inSpace_iff]
  constructor
  · intro h
    have := h _ (mem_slots.mpr ⟨15, by omega, rfl⟩)
    unfold slotAddr at this; omega
  · rintro h x hx
    obtain ⟨n, hn, rfl⟩ := mem_slots.mp hx
    unfold slotAddr; omega

theorem inSpace_edge_iff {size e ps ss : Nat} :
    (inSpace size (edgeCellsAt e ps ss readTaps) && inSpace size (edgeCellsAt e ps ss writeTaps)) = true ↔
      2 * ss ≤ e ∧ e + 15 * ps + ss < size := by
  rw [Bool.and_eq_true, inSpace_iff, inSpace_iff]
  constructor
  · rintro ⟨h, -⟩
    have h1 := h _ (mem_edgeCellsAt.mpr ⟨0, by omega, -2, by decide, rfl⟩)
    have h2 := h _ (mem_edgeCellsAt.mpr ⟨15, by omega, 1, by decide, rfl⟩)
    unfold edgeAddr at h1 h2; omega
  · rintro ⟨h1, h2⟩
    constructor <;> intro x hx <;> obtain ⟨i, hi, j, hj, rfl⟩ := mem_edgeCellsAt.mp hx <;>
      have : i * ps ≤ 15 * ps := Nat.mul_le_mul_right _ (by omega)
    · simp only [readTaps, List.mem_cons, List.not_mem_nil, or_false] at hj
      unfold edgeAddr
      rcases hj with rfl | rfl | rfl | rfl <;> omega
    · simp only [writeTaps, List.mem_cons, List.not_mem_nil, or_false] at hj
      unfold edgeAddr
      rcases hj with rfl | rfl <;> omega

theorem inSpace_inner_iff {size b ps ss : Nat} :
    (inSpace size (innerCellsAt b ps ss readTaps) && inSpace size (innerCellsAt b ps ss writeTaps)) = true ↔
      b + 15 * ps + 13 * ss < size := by
  rw [Bool.and_eq_true, inSpace_iff, inSpace_iff]
  constructor
  · rintro ⟨h, -⟩
    have := h _ (mem_innerCellsAt.mpr ⟨12, by decide, 15, by omega, 1, by decide, rfl⟩)
    unfold edgeAddr at this; omega
  · rintro h
    have inner : ∀ taps : List Int, (∀ e ∈ innerEdges, ∀ j ∈ taps, -(e * ss : Int) ≤ j * ss ∧ j * ss ≤ ss) →
        ∀ x ∈ innerCellsAt b ps ss taps, 0 ≤ x ∧ x < (size : Int) := by
      intro taps ht x hx
      obtain ⟨e, he, i, hi, j, hj, rfl⟩ := mem_innerCellsAt.mp hx
      have h1 : i * ps ≤ 15 * ps := Nat.mul_le_mul_right _ (by omega)
      have h2 : e * ss ≤ 12 * ss := Nat.mul_le_mul_right _ (by
        simp only [innerEdges, List.mem_cons, List.not_mem_nil, or_false] at he; omega)
      have := ht e he j hj
      unfold edgeAddr
      push_cast
      constructor <;> nlinarith
    constructor <;> refine inner _ fun e he j hj => ?_ <;>
      simp only [innerEdges, readTaps, writeTaps, List.mem_cons, List.not_mem_nil, or_false] at he hj <;>
      rcases he with rfl | rfl | rfl <;> rcases hj with rfl | rfl | rfl | rfl <;> push_cast <;> omega

theorem mem_blockCells {s : State} {b : Nat} {res : Block} {c : Nat × Sample} :
    c ∈ blockCells s b res ↔ ∃ r < 4, ∃ k < 4, c =
      (blockAddr s.cfg.bps b r k, accumulate (s.pixel (blockAddr s.cfg.bps b r k)) (res.get r k)) := by
  simp only [blockCells, List.mem_flatMap, List.mem_map, List.mem_range]
  constructor
  · rintro ⟨r, hr, k, hk, rfl⟩; exact ⟨r, hr, k, hk, rfl⟩
  · rintro ⟨r, hr, k, hk, rfl⟩; exact ⟨r, hr, k, hk, rfl⟩

theorem mem_whtCells {b : Nat} {x : Block} {c : Nat × Coef} :
    c ∈ whtCells b x ↔ ∃ i < 4, ∃ j < 4, c =
      (slotAddr b (4 * i + j), coefOf (roundWht ((whtSum x).get i j))) := by
  simp only [whtCells, List.mem_flatMap, List.mem_map, List.mem_range]
  constructor
  · rintro ⟨r, hr, k, hk, rfl⟩; exact ⟨r, hr, k, hk, rfl⟩
  · rintro ⟨r, hr, k, hk, rfl⟩; exact ⟨r, hr, k, hk, rfl⟩

theorem mem_edgeCells {s : State} {e ps ss t : Nat} {c : Nat × Sample} :
    c ∈ edgeCells s e ps ss t ↔ ∃ i < 16,
      c = (edgeAddr e ps i - ss, (filtAt s (edgeAddr e ps i) ss t).1) ∨
      c = (edgeAddr e ps i, (filtAt s (edgeAddr e ps i) ss t).2) := by
  simp [edgeCells]

theorem mem_innerEdgeCells {s : State} {b ps ss t : Nat} {c : Nat × Sample} :
    c ∈ innerEdgeCells s b ps ss t ↔ ∃ e ∈ innerEdges, c ∈ edgeCells s (b + e * ss) ps ss t := by
  simp [innerEdgeCells]

/-- Distinct (row, column) elements of a region no wider than the row stride have distinct addresses (R46). -/
theorem rowColumn_inj {bps w r k r' k' : Nat} (hw : w ≤ bps) (hk : k < w) (hk' : k' < w)
    (h : r * bps + k = r' * bps + k') : r = r' ∧ k = k' := by
  have hr : r = r' := by
    rcases Nat.lt_trichotomy r r' with hlt | heq | hgt
    · have := Nat.mul_le_mul_right bps (show r + 1 ≤ r' from hlt)
      rw [Nat.add_mul] at this; omega
    · exact heq
    · have := Nat.mul_le_mul_right bps (show r' + 1 ≤ r from hgt)
      rw [Nat.add_mul] at this; omega
  subst hr
  exact ⟨rfl, by omega⟩

/-- The addresses of a region's cells, `blocks` blocks side by side. -/
theorem blockAddr_shift (bps b r k n : Nat) : blockAddr bps (b + n) r k = blockAddr bps b r (n + k) := by
  unfold blockAddr; omega

/-- In an edge whose cells lie in the space, the two samples below `q0` have addresses that do not wrap. -/
theorem edge_taps_of_inSpace {size e ps ss : Nat} (h : ∀ a ∈ edgeCellsAt e ps ss readTaps, 0 ≤ a ∧ a < (size : Int))
    {i : Nat} (hi : i < 16) : 2 * ss ≤ edgeAddr e ps i ∧ edgeAddr e ps i + ss < size := by
  have h1 := h _ (mem_edgeCellsAt.mpr ⟨i, hi, -2, by decide, rfl⟩)
  have h2 := h _ (mem_edgeCellsAt.mpr ⟨i, hi, 1, by decide, rfl⟩)
  omega

/-- A cell that an edge stores is a cell of its write footprint, and conversely. -/
theorem mem_edge_write_iff {s : State} {e ps ss t : Nat}
    (h : ∀ i < 16, 2 * ss ≤ edgeAddr e ps i) (x : Int) :
    x ∈ edgeCellsAt e ps ss writeTaps ↔ ∃ c ∈ edgeCells s e ps ss t, (c.1 : Int) = x := by
  simp only [mem_edgeCellsAt, mem_edgeCells, writeTaps]
  constructor
  · rintro ⟨i, hi, j, hj, rfl⟩
    have := h i hi
    rcases List.mem_cons.mp hj with rfl | hj
    · exact ⟨_, ⟨i, hi, .inl rfl⟩, by simp only; omega⟩
    · obtain rfl := List.mem_singleton.mp hj
      exact ⟨_, ⟨i, hi, .inr rfl⟩, by simp only; omega⟩
  · rintro ⟨c, ⟨i, hi, rfl | rfl⟩, rfl⟩
    · have := h i hi
      exact ⟨i, hi, -1, by decide, by simp only; omega⟩
    · exact ⟨i, hi, 0, by decide, by simp only; omega⟩

/-- The pixel cells that an in-bounds command stores are exactly its write footprint. -/
theorem mem_pixWrite_iff {s : State} {i : Instr} (h : inBounds s.cfg i = true) (x : Int) :
    x ∈ (footprint s.cfg.bps i).pixWrite ↔ ∃ c ∈ pixCells s i, (c.1 : Int) = x := by
  have hb := (inBounds_iff.mp h).2.2.1
  have region1 : ∀ (b : Nat) (res : Block), x ∈ region s.cfg.bps b 4 ↔
      ∃ c ∈ blockCells s b res, (c.1 : Int) = x := by
    intro b res
    simp only [mem_region, mem_blockCells]
    constructor
    · rintro ⟨r, hr, k, hk, rfl⟩; exact ⟨_, ⟨r, hr, k, hk, rfl⟩, rfl⟩
    · rintro ⟨_, ⟨r, hr, k, hk, rfl⟩, rfl⟩; exact ⟨r, hr, k, hk, rfl⟩
  cases i with
  | init => simp [footprint, pixCells]
  | transform a b => exact region1 b _
  | transformDc a b => exact region1 b _
  | transformAc3 a b => exact region1 b _
  | transformWht a b => simp [footprint, pixCells]
  | transform2 a b =>
    simp only [footprint, transformFootprint, pixCells, List.mem_append, mem_region, mem_blockCells]
    constructor
    · rintro ⟨r, hr, k, hk, rfl⟩
      by_cases hk4 : k < 4
      · exact ⟨_, .inl ⟨r, hr, k, hk4, rfl⟩, rfl⟩
      · refine ⟨_, .inr ⟨r, hr, k - 4, by omega, rfl⟩, ?_⟩
        rw [blockAddr_shift, show 4 + (k - 4) = k by omega]
    · rintro ⟨_, ⟨r, hr, k, hk, rfl⟩ | ⟨r, hr, k, hk, rfl⟩, rfl⟩
      · exact ⟨r, hr, k, by omega, rfl⟩
      · exact ⟨r, hr, 4 + k, by omega, by rw [blockAddr_shift]⟩
  | simpleVfilter16 b t => exact mem_edge_write_iff (fun i hi => (edge_taps_of_inSpace hb hi).1) x
  | simpleHfilter16 b t => exact mem_edge_write_iff (fun i hi => (edge_taps_of_inSpace hb hi).1) x
  | simpleVfilter16i b t =>
    have he : ∀ e ∈ innerEdges, ∀ i < 16, 2 * s.cfg.bps ≤ edgeAddr (b + e * s.cfg.bps) 1 i :=
      fun e he i hi => (edge_taps_of_inSpace (fun a ha => hb a (List.mem_flatMap.mpr ⟨e, he, ha⟩)) hi).1
    simp only [footprint, innerFootprint, innerCellsAt, pixCells, innerEdgeCells, List.mem_flatMap]
    constructor
    · rintro ⟨e, hm, hx⟩
      obtain ⟨c, hc, hcx⟩ := (mem_edge_write_iff (s := s) (t := t) (he e hm) x).mp hx
      exact ⟨c, ⟨e, hm, hc⟩, hcx⟩
    · rintro ⟨c, ⟨e, hm, hc⟩, hcx⟩
      exact ⟨e, hm, (mem_edge_write_iff (he e hm) x).mpr ⟨c, hc, hcx⟩⟩
  | simpleHfilter16i b t =>
    have he : ∀ e ∈ innerEdges, ∀ i < 16, 2 * 1 ≤ edgeAddr (b + e * 1) s.cfg.bps i :=
      fun e he i hi => (edge_taps_of_inSpace (fun a ha => hb a (List.mem_flatMap.mpr ⟨e, he, ha⟩)) hi).1
    simp only [footprint, innerFootprint, innerCellsAt, pixCells, innerEdgeCells, List.mem_flatMap]
    constructor
    · rintro ⟨e, hm, hx⟩
      obtain ⟨c, hc, hcx⟩ := (mem_edge_write_iff (s := s) (t := t) (he e hm) x).mp hx
      exact ⟨c, ⟨e, hm, hc⟩, hcx⟩
    · rintro ⟨c, ⟨e, hm, hc⟩, hcx⟩
      exact ⟨e, hm, (mem_edge_write_iff (he e hm) x).mpr ⟨c, hc, hcx⟩⟩

/-- The coefficient cells that a command stores are exactly its write footprint. -/
theorem mem_coefWrite_iff {s : State} {i : Instr} (x : Int) :
    x ∈ (footprint s.cfg.bps i).coefWrite ↔ ∃ c ∈ coefCells s i, (c.1 : Int) = x := by
  cases i with
  | transformWht a b =>
    simp only [footprint, coefCells, mem_slots, mem_whtCells]
    constructor
    · rintro ⟨n, hn, rfl⟩
      refine ⟨_, ⟨n / 4, by omega, n % 4, by omega, rfl⟩, ?_⟩
      rw [show 4 * (n / 4) + n % 4 = n by omega]
    · rintro ⟨_, ⟨i, hi, j, hj, rfl⟩, rfl⟩
      exact ⟨4 * i + j, by omega, rfl⟩
  | _ => simp [footprint, coefCells, transformFootprint, edgeFootprint, innerFootprint]

/-- An admitted command stores inside both spaces. -/
theorem cells_within_of_inBounds {s : State} {i : Instr} (h : inBounds s.cfg i = true) :
    (∀ c ∈ pixCells s i, c.1 < s.cfg.pixSize) ∧ (∀ c ∈ coefCells s i, c.1 < s.cfg.coefSize) := by
  obtain ⟨-, hcw, -, hpw⟩ := inBounds_iff.mp h
  constructor
  · intro c hc
    have := hpw _ ((mem_pixWrite_iff h c.1).mpr ⟨c, hc, rfl⟩)
    omega
  · intro c hc
    have := hcw _ ((mem_coefWrite_iff (s := s) (c.1 : Int)).mpr ⟨c, hc, rfl⟩)
    omega

end Sys2Proof.Machine
end

