-- ==== Sys2Proof/Laws/Cells.lean ====
section
/-! SUPPORT. What a command's stored cells read as afterwards: no two of its cells share an address when
`BPS >= 16` (spec/20_memory.md R46). -/

namespace Sys2Proof.Machine

/-- A cell of a stored 4x4 region. -/
theorem read_blockCells (s : State) (b : Nat) (res : Block) (m : Mem 8) (hm : m.wf) (hs : 4 ≤ s.cfg.bps)
    {r k : Nat} (hr : r < 4) (hk : k < 4) :
    (m.writeAll (blockCells s b res)).read (blockAddr s.cfg.bps b r k) =
      accumulate (s.pixel (blockAddr s.cfg.bps b r k)) (res.get r k) := by
  refine Mem.read_writeAll_of_mem _ _ _ _ hm (mem_blockCells.mpr ⟨r, hr, k, hk, rfl⟩) fun c hc hx => ?_
  obtain ⟨r', hr', k', hk', rfl⟩ := mem_blockCells.mp hc
  obtain ⟨rfl, rfl⟩ := rowColumn_inj (r := r') (r' := r) hs hk' hk (by simp only [blockAddr] at hx; omega)
  rfl

/-- A WHT output slot. -/
theorem read_whtCells (b : Nat) (x : Block) (m : Mem 16) (hm : m.wf) {i j : Nat} (hi : i < 4) (hj : j < 4) :
    (m.writeAll (whtCells b x)).read (slotAddr b (4 * i + j)) = coefOf (roundWht ((whtSum x).get i j)) := by
  refine Mem.read_writeAll_of_mem _ _ _ _ hm (mem_whtCells.mpr ⟨i, hi, j, hj, rfl⟩) fun c hc hx => ?_
  obtain ⟨i', hi', j', hj', rfl⟩ := mem_whtCells.mp hc
  unfold slotAddr at hx
  obtain ⟨rfl, rfl⟩ : i' = i ∧ j' = j := ⟨by simp only at hx; omega, by simp only at hx; omega⟩
  rfl

/-- The `q0` addresses of an edge are distinct, and none is another's `p0` address. -/
def EdgeDistinct (e ps ss : Nat) : Prop :=
  ∀ i < 16, ∀ j < 16, (edgeAddr e ps i - ss = edgeAddr e ps j - ss → i = j) ∧
    (edgeAddr e ps i = edgeAddr e ps j → i = j) ∧ edgeAddr e ps i - ss ≠ edgeAddr e ps j

theorem edgeDistinct_horizontal {e bps : Nat} (hs : 16 ≤ bps) (he : bps ≤ e) : EdgeDistinct e 1 bps := by
  intro i hi j hj
  unfold edgeAddr
  omega

theorem edgeDistinct_vertical {e bps : Nat} (hs : 16 ≤ bps) (he : 1 ≤ e) : EdgeDistinct e bps 1 := by
  intro i hi j hj
  unfold edgeAddr
  have h1 : ∀ i j : Nat, e + i * bps - 1 = e + j * bps - 1 → i = j := fun i j h =>
    (rowColumn_inj (bps := bps) (w := 1) (r := i) (r' := j) (k := 0) (k' := 0) (by omega) (by omega) (by omega) (by omega)).1
  refine ⟨h1 i j, fun h => h1 i j (by omega), fun h => ?_⟩
  have := rowColumn_inj (bps := bps) (w := 2) (r := i) (r' := j) (k := 0) (k' := 1) (by omega) (by omega)
    (by omega) (by omega)
  omega

/-- The two cells that a position of an edge stores. -/
theorem read_edgeCells (s : State) (e ps ss t : Nat) (m : Mem 8) (hm : m.wf) (hd : EdgeDistinct e ps ss)
    {i : Nat} (hi : i < 16) :
    (m.writeAll (edgeCells s e ps ss t)).read (edgeAddr e ps i - ss) = (filtAt s (edgeAddr e ps i) ss t).1 ∧
    (m.writeAll (edgeCells s e ps ss t)).read (edgeAddr e ps i) = (filtAt s (edgeAddr e ps i) ss t).2 := by
  constructor
  · refine Mem.read_writeAll_of_mem _ _ _ _ hm (mem_edgeCells.mpr ⟨i, hi, .inl rfl⟩) fun c hc hx => ?_
    obtain ⟨j, hj, rfl | rfl⟩ := mem_edgeCells.mp hc
    · obtain rfl := (hd j hj i hi).1 hx
      rfl
    · exact absurd hx.symm (hd i hi j hj).2.2
  · refine Mem.read_writeAll_of_mem _ _ _ _ hm (mem_edgeCells.mpr ⟨i, hi, .inr rfl⟩) fun c hc hx => ?_
    obtain ⟨j, hj, rfl | rfl⟩ := mem_edgeCells.mp hc
    · exact absurd hx (hd j hj i hi).2.2
    · obtain rfl := (hd j hj i hi).2.1 hx
      rfl

/-- The cells of two different inner edges differ. -/
def InnerDistinct (b ps ss : Nat) : Prop :=
  ∀ e ∈ innerEdges, ∀ e' ∈ innerEdges, e ≠ e' → ∀ i < 16, ∀ j < 16,
    edgeAddr (b + e * ss) ps i - ss ≠ edgeAddr (b + e' * ss) ps j - ss ∧
    edgeAddr (b + e * ss) ps i - ss ≠ edgeAddr (b + e' * ss) ps j ∧
    edgeAddr (b + e * ss) ps i ≠ edgeAddr (b + e' * ss) ps j - ss ∧
    edgeAddr (b + e * ss) ps i ≠ edgeAddr (b + e' * ss) ps j

theorem innerDistinct_horizontal {b bps : Nat} (hs : 16 ≤ bps) : InnerDistinct b 1 bps := by
  intro e he e' he' hne i hi j hj
  simp only [innerEdges, List.mem_cons, List.not_mem_nil, or_false] at he he'
  unfold edgeAddr
  rcases he with rfl | rfl | rfl <;> rcases he' with rfl | rfl | rfl <;> omega

theorem innerDistinct_vertical {b bps : Nat} (hs : 16 ≤ bps) : InnerDistinct b bps 1 := by
  intro e he e' he' hne i hi j hj
  have key : ∀ k < 16, ∀ k' < 16, b + i * bps + k = b + j * bps + k' → k = k' := fun k hk k' hk' h =>
    (rowColumn_inj (bps := bps) (w := 16) (r := i) (r' := j) hs hk hk' (by omega)).2
  simp only [innerEdges, List.mem_cons, List.not_mem_nil, or_false] at he he'
  unfold edgeAddr
  rcases he with rfl | rfl | rfl <;> rcases he' with rfl | rfl | rfl <;> first | omega | skip
  all_goals
    refine ⟨fun h => ?_, fun h => ?_, fun h => ?_, fun h => ?_⟩
  · have := key 3 (by omega) 7 (by omega); omega
  · have := key 3 (by omega) 8 (by omega); omega
  · have := key 4 (by omega) 7 (by omega); omega
  · have := key 4 (by omega) 8 (by omega); omega
  · have := key 3 (by omega) 11 (by omega); omega
  · have := key 3 (by omega) 12 (by omega); omega
  · have := key 4 (by omega) 11 (by omega); omega
  · have := key 4 (by omega) 12 (by omega); omega
  · have := key 7 (by omega) 3 (by omega); omega
  · have := key 7 (by omega) 4 (by omega); omega
  · have := key 8 (by omega) 3 (by omega); omega
  · have := key 8 (by omega) 4 (by omega); omega
  · have := key 7 (by omega) 11 (by omega); omega
  · have := key 7 (by omega) 12 (by omega); omega
  · have := key 8 (by omega) 11 (by omega); omega
  · have := key 8 (by omega) 12 (by omega); omega
  · have := key 11 (by omega) 3 (by omega); omega
  · have := key 11 (by omega) 4 (by omega); omega
  · have := key 12 (by omega) 3 (by omega); omega
  · have := key 12 (by omega) 4 (by omega); omega
  · have := key 11 (by omega) 7 (by omega); omega
  · have := key 11 (by omega) 8 (by omega); omega
  · have := key 12 (by omega) 7 (by omega); omega
  · have := key 12 (by omega) 8 (by omega); omega

/-- The two cells that a position of an inner edge stores. -/
theorem read_innerEdgeCells (s : State) (b ps ss t : Nat) (m : Mem 8) (hm : m.wf)
    (hd : ∀ e ∈ innerEdges, EdgeDistinct (b + e * ss) ps ss) (hi : InnerDistinct b ps ss) {e i : Nat}
    (he : e ∈ innerEdges) (hi16 : i < 16) :
    (m.writeAll (innerEdgeCells s b ps ss t)).read (edgeAddr (b + e * ss) ps i - ss) =
      (filtAt s (edgeAddr (b + e * ss) ps i) ss t).1 ∧
    (m.writeAll (innerEdgeCells s b ps ss t)).read (edgeAddr (b + e * ss) ps i) =
      (filtAt s (edgeAddr (b + e * ss) ps i) ss t).2 := by
  constructor
  · refine Mem.read_writeAll_of_mem _ _ _ _ hm
      (mem_innerEdgeCells.mpr ⟨e, he, mem_edgeCells.mpr ⟨i, hi16, .inl rfl⟩⟩) fun c hc hx => ?_
    obtain ⟨e', he', hc⟩ := mem_innerEdgeCells.mp hc
    obtain ⟨j, hj, rfl | rfl⟩ := mem_edgeCells.mp hc
    · by_cases h : e' = e
      · subst h
        obtain rfl := (hd _ he j hj i hi16).1 hx
        rfl
      · exact absurd hx (hi e' he' e he h j hj i hi16).1
    · by_cases h : e' = e
      · subst h
        exact absurd hx.symm (hd _ he i hi16 j hj).2.2
      · exact absurd hx (hi e' he' e he h j hj i hi16).2.2.1
  · refine Mem.read_writeAll_of_mem _ _ _ _ hm
      (mem_innerEdgeCells.mpr ⟨e, he, mem_edgeCells.mpr ⟨i, hi16, .inr rfl⟩⟩) fun c hc hx => ?_
    obtain ⟨e', he', hc⟩ := mem_innerEdgeCells.mp hc
    obtain ⟨j, hj, rfl | rfl⟩ := mem_edgeCells.mp hc
    · by_cases h : e' = e
      · subst h
        exact absurd hx (hd _ he j hj i hi16).2.2
      · exact absurd hx (hi e' he' e he h j hj i hi16).2.1
    · by_cases h : e' = e
      · subst h
        obtain rfl := (hd _ he j hj i hi16).2.1 hx
        rfl
      · exact absurd hx (hi e' he' e he h j hj i hi16).2.2.2

/-! ## The same through the state -/

/-- Storing pixels changes `PIX` alone. -/
theorem storePix_eq (s : State) (l : List (Nat × Sample)) : s.storePix l = { s with pix := (s.storePix l).pix } := rfl

/-- Storing coefficients changes `COEF` alone. -/
theorem storeCoef_eq (s : State) (l : List (Nat × Coef)) :
    s.storeCoef l = { s with coef := (s.storeCoef l).coef } := rfl

theorem pixel_storePix (s : State) (l : List (Nat × Sample)) (x : Nat) :
    (s.storePix l).pixel x = (s.pix.writeAll l).read x := rfl

theorem coefficient_storeCoef (s : State) (l : List (Nat × Coef)) (x : Nat) :
    (s.storeCoef l).coefficient x = ((s.coef.writeAll l).read x).toInt := rfl

theorem storePix_append (s : State) (l l' : List (Nat × Sample)) :
    s.storePix (l ++ l') = (s.storePix l).storePix l' := by
  simp [State.storePix, Mem.writeAll_append]

theorem pixel_storePix_other (s : State) (l : List (Nat × Sample)) (x : Nat) (h : ∀ c ∈ l, c.1 ≠ x) :
    (s.storePix l).pixel x = s.pixel x := by
  rw [pixel_storePix, Mem.read_writeAll_other _ _ _ h]; rfl

theorem coefficient_storeCoef_other (s : State) (l : List (Nat × Coef)) (x : Nat) (h : ∀ c ∈ l, c.1 ≠ x) :
    (s.storeCoef l).coefficient x = s.coefficient x := by
  rw [coefficient_storeCoef, Mem.read_writeAll_other _ _ _ h]; rfl

/-- A cell of a stored 4x4 region; the samples added to are `s`'s, the memory stored to may be another. -/
theorem pixel_store_block (s s' : State) (b : Nat) (res : Block) (hm : s'.pix.wf) (hs : 4 ≤ s.cfg.bps)
    {r k : Nat} (hr : r < 4) (hk : k < 4) :
    (s'.storePix (blockCells s b res)).pixel (b + r * s.cfg.bps + k) =
      accumulate (s.pixel (b + r * s.cfg.bps + k)) (res.get r k) := by
  rw [pixel_storePix]
  exact read_blockCells s b res s'.pix hm hs hr hk

theorem pixel_store_block_other (s s' : State) (b x : Nat) (res : Block)
    (h : ∀ r < 4, ∀ k < 4, x ≠ b + r * s.cfg.bps + k) :
    (s'.storePix (blockCells s b res)).pixel x = s'.pixel x := by
  refine pixel_storePix_other _ _ _ fun c hc hx => ?_
  obtain ⟨r, hr, k, hk, rfl⟩ := mem_blockCells.mp hc
  exact h r hr k hk hx.symm

/-- A WHT output slot. -/
theorem coefficient_store_wht (s : State) (b : Nat) (x : Block) (hm : s.coef.wf) {i j : Nat} (hi : i < 4)
    (hj : j < 4) :
    (s.storeCoef (whtCells b x)).coefficient (b + 16 * (4 * i + j)) = satS16 (roundWht ((whtSum x).get i j)) := by
  rw [coefficient_storeCoef, ← toInt_coefOf]
  exact congrArg BitVec.toInt (read_whtCells b x s.coef hm hi hj)

theorem coefficient_store_wht_other (s : State) (b y : Nat) (x : Block) (h : ∀ n < 16, y ≠ b + 16 * n) :
    (s.storeCoef (whtCells b x)).coefficient y = s.coefficient y := by
  refine coefficient_storeCoef_other _ _ _ fun c hc hx => ?_
  obtain ⟨i, hi, j, hj, rfl⟩ := mem_whtCells.mp hc
  exact h (4 * i + j) (by omega) hx.symm

/-- The two cells that a position of an edge stores. -/
theorem pixel_store_edge (s : State) (e ps ss t : Nat) (hm : s.pix.wf) (hd : EdgeDistinct e ps ss) {i : Nat}
    (hi : i < 16) :
    ((s.storePix (edgeCells s e ps ss t)).pixel (e + i * ps - ss),
      (s.storePix (edgeCells s e ps ss t)).pixel (e + i * ps)) = filtAt s (e + i * ps) ss t := by
  rw [pixel_storePix, pixel_storePix]
  have h := read_edgeCells s e ps ss t s.pix hm hd hi
  simp only [edgeAddr] at h
  rw [h.1, h.2]

theorem pixel_store_edge_other (s : State) (e ps ss t x : Nat)
    (h : ∀ i < 16, x ≠ e + i * ps - ss ∧ x ≠ e + i * ps) :
    (s.storePix (edgeCells s e ps ss t)).pixel x = s.pixel x := by
  refine pixel_storePix_other _ _ _ fun c hc hx => ?_
  obtain ⟨i, hi, rfl | rfl⟩ := mem_edgeCells.mp hc
  · exact (h i hi).1 hx.symm
  · exact (h i hi).2 hx.symm

/-- The two cells that a position of an inner edge stores. -/
theorem pixel_store_inner (s : State) (b ps ss t : Nat) (hm : s.pix.wf)
    (hd : ∀ e ∈ innerEdges, EdgeDistinct (b + e * ss) ps ss) (hi : InnerDistinct b ps ss) {e i : Nat}
    (he : e ∈ innerEdges) (hi16 : i < 16) :
    ((s.storePix (innerEdgeCells s b ps ss t)).pixel (b + e * ss + i * ps - ss),
      (s.storePix (innerEdgeCells s b ps ss t)).pixel (b + e * ss + i * ps)) =
      filtAt s (b + e * ss + i * ps) ss t := by
  rw [pixel_storePix, pixel_storePix]
  have h := read_innerEdgeCells s b ps ss t s.pix hm hd hi he hi16
  simp only [edgeAddr] at h
  rw [h.1, h.2]

theorem pixel_store_inner_other (s : State) (b ps ss t x : Nat)
    (h : ∀ e ∈ innerEdges, ∀ i < 16, x ≠ b + e * ss + i * ps - ss ∧ x ≠ b + e * ss + i * ps) :
    (s.storePix (innerEdgeCells s b ps ss t)).pixel x = s.pixel x := by
  refine pixel_storePix_other _ _ _ fun c hc hx => ?_
  obtain ⟨e, he, hc⟩ := mem_innerEdgeCells.mp hc
  obtain ⟨i, hi, rfl | rfl⟩ := mem_edgeCells.mp hc
  · exact (h e he i hi).1 hx.symm
  · exact (h e he i hi).2 hx.symm

/-- Element `(r, k)` of a coefficient block. -/
theorem get_coefBlock (s : State) (w : Nat) {r k : Nat} (hr : r < 4) (hk : k < 4) :
    (s.coefBlock w).get r k = s.coefficient (w + (4 * r + k)) := Block.get_ofFn _ r k hr hk

end Sys2Proof.Machine
end

