-- ==== Sys2Proof/Laws/Locality.lean ====
section
/-! SUPPORT. A command's result depends only on its read footprint, and stores to disjoint cells commute
(spec/20_memory.md R45, R47, R50). -/

namespace Sys2Proof.Machine

theorem blockCells_congr {s s' : State} {b : Nat} {res res' : Block} (hc : s.cfg = s'.cfg) (hr : res = res')
    (hp : ∀ r < 4, ∀ k < 4, s.pixel (blockAddr s.cfg.bps b r k) = s'.pixel (blockAddr s.cfg.bps b r k)) :
    blockCells s b res = blockCells s' b res' := by
  subst hr
  unfold blockCells
  rw [← hc]
  refine List.flatMap_congr fun r hr => List.map_congr_left fun k hk => ?_
  rw [List.mem_range] at hr hk
  rw [hp r hr k hk]

theorem coefBlock_congr {s s' : State} {a : Nat} (h : ∀ m < 16, s.coefficient (a + m) = s'.coefficient (a + m)) :
    s.coefBlock a = s'.coefBlock a := by
  simp only [State.coefBlock, Block.ofFn, Block.mk.injEq, Quad.mk.injEq]
  refine ⟨⟨?_, ?_, ?_, ?_⟩, ⟨?_, ?_, ?_, ?_⟩, ⟨?_, ?_, ?_, ?_⟩, ?_, ?_, ?_, ?_⟩ <;> exact h _ (by omega)

theorem edgeCells_congr {s s' : State} {e ps ss t : Nat} (hn : ∀ i < 16, 2 * ss ≤ edgeAddr e ps i)
    (hp : ∀ x : Nat, (x : Int) ∈ edgeCellsAt e ps ss readTaps → s.pixel x = s'.pixel x) :
    edgeCells s e ps ss t = edgeCells s' e ps ss t := by
  unfold edgeCells
  refine List.flatMap_congr fun i hi => ?_
  rw [List.mem_range] at hi
  have h := hn i hi
  have : filtAt s (edgeAddr e ps i) ss t = filtAt s' (edgeAddr e ps i) ss t := by
    unfold filtAt
    rw [hp _ (mem_edgeCellsAt.mpr ⟨i, hi, -2, by decide, by omega⟩),
      hp _ (mem_edgeCellsAt.mpr ⟨i, hi, -1, by decide, by omega⟩),
      hp _ (mem_edgeCellsAt.mpr ⟨i, hi, 0, by decide, by omega⟩),
      hp _ (mem_edgeCellsAt.mpr ⟨i, hi, 1, by decide, by omega⟩)]
  rw [this]

theorem innerEdgeCells_congr {s s' : State} {b ps ss t : Nat}
    (hb : ∀ a ∈ innerCellsAt b ps ss readTaps, 0 ≤ a ∧ a < (s.cfg.pixSize : Int))
    (hp : ∀ x : Nat, (x : Int) ∈ innerCellsAt b ps ss readTaps → s.pixel x = s'.pixel x) :
    innerEdgeCells s b ps ss t = innerEdgeCells s' b ps ss t :=
  List.flatMap_congr fun e he => edgeCells_congr
    (fun _ hi => (edge_taps_of_inSpace (fun a ha => hb a (List.mem_flatMap.mpr ⟨e, he, ha⟩)) hi).1)
    fun x hx => hp x (List.mem_flatMap.mpr ⟨e, he, hx⟩)

/-- Two states that agree on the read footprint of an in-bounds command are given the same cells. -/
theorem cells_congr {s s' : State} {i : Instr} (hb : inBounds s.cfg i = true) (hc : s.cfg = s'.cfg)
    (hp : ∀ x : Nat, (x : Int) ∈ (footprint s.cfg.bps i).pixRead → s.pixel x = s'.pixel x)
    (hq : ∀ x : Nat, (x : Int) ∈ (footprint s.cfg.bps i).coefRead → s.coefficient x = s'.coefficient x) :
    pixCells s i = pixCells s' i ∧ coefCells s i = coefCells s' i := by
  have hbr := (inBounds_iff.mp hb).2.2.1
  cases i with
  | init => exact ⟨rfl, rfl⟩
  | transform a b =>
    refine ⟨blockCells_congr hc ?_ fun r hr k hk => hp _ (mem_region.mpr ⟨r, hr, k, hk, rfl⟩), rfl⟩
    rw [coefBlock_congr fun m hm => hq _ (mem_run.mpr ⟨m, hm, by push_cast; rfl⟩)]
  | transform2 a b =>
    refine ⟨?_, rfl⟩
    show _ ++ _ = _ ++ _
    congr 1
    · refine blockCells_congr hc ?_ fun r hr k hk => hp _ (mem_region.mpr ⟨r, hr, k, by omega, rfl⟩)
      rw [coefBlock_congr fun m hm => hq _ (mem_run.mpr ⟨m, by omega, by push_cast; rfl⟩)]
    · refine blockCells_congr hc ?_ fun r hr k hk =>
        hp _ (mem_region.mpr ⟨r, hr, 4 + k, by omega, by rw [blockAddr_shift]⟩)
      rw [coefBlock_congr fun m hm => hq _ (mem_run.mpr ⟨16 + m, by omega, by push_cast; ring⟩)]
  | transformDc a b =>
    refine ⟨blockCells_congr hc ?_ fun r hr k hk => hp _ (mem_region.mpr ⟨r, hr, k, hk, rfl⟩), rfl⟩
    rw [hq a (mem_run.mpr ⟨0, by omega, by simp⟩)]
  | transformAc3 a b =>
    refine ⟨blockCells_congr hc ?_ fun r hr k hk => hp _ (mem_region.mpr ⟨r, hr, k, hk, rfl⟩), rfl⟩
    rw [hq a (mem_run.mpr ⟨0, by omega, by simp⟩), hq (a + 1) (mem_run.mpr ⟨1, by omega, by simp⟩),
      hq (a + 4) (mem_run.mpr ⟨4, by omega, by simp⟩)]
  | transformWht a b =>
    refine ⟨rfl, ?_⟩
    show whtCells b _ = whtCells b _
    rw [coefBlock_congr fun m hm => hq _ (mem_run.mpr ⟨m, hm, by push_cast; rfl⟩)]
  | simpleVfilter16 b t =>
    refine ⟨?_, rfl⟩
    simp only [pixCells, ← hc]
    exact edgeCells_congr (fun i hi => (edge_taps_of_inSpace hbr hi).1) hp
  | simpleHfilter16 b t =>
    refine ⟨?_, rfl⟩
    simp only [pixCells, ← hc]
    exact edgeCells_congr (fun i hi => (edge_taps_of_inSpace hbr hi).1) hp
  | simpleVfilter16i b t =>
    refine ⟨?_, rfl⟩
    simp only [pixCells, ← hc]
    exact innerEdgeCells_congr hbr hp
  | simpleHfilter16i b t =>
    refine ⟨?_, rfl⟩
    simp only [pixCells, ← hc]
    exact innerEdgeCells_congr hbr hp

theorem zeroAt_congr {s s' : State} {a : Nat} {ms : List Nat}
    (h : ∀ m < 16, s.coefficient (a + m) = s'.coefficient (a + m)) (hm : ∀ m ∈ ms, m < 16) :
    s.zeroAt a ms = s'.zeroAt a ms := by
  rw [Bool.eq_iff_iff]
  simp only [State.zeroAt, List.all_eq_true, decide_eq_true_eq]
  exact forall₂_congr fun m hm' => by rw [h m (hm m hm')]

theorem sparse_congr {s s' : State} {i : Instr} (bps : Nat)
    (hq : ∀ x : Nat, (x : Int) ∈ (footprint bps i).coefRead → s.coefficient x = s'.coefficient x) :
    s.sparse i = s'.sparse i := by
  have block : ∀ a : Nat, (∀ x : Nat, (x : Int) ∈ run a 16 → s.coefficient x = s'.coefficient x) →
      ∀ m < 16, s.coefficient (a + m) = s'.coefficient (a + m) :=
    fun a h m hm => h _ (mem_run.mpr ⟨m, hm, by push_cast; rfl⟩)
  cases i with
  | transformDc a b => exact zeroAt_congr (ms := dcZeroIndices) (block a hq) (by decide)
  | transformAc3 a b => exact zeroAt_congr (ms := ac3ZeroIndices) (block a hq) (by decide)
  | _ => rfl

variable {n : Nat}

/-- What a stored cell reads as does not depend on the memory stored to. -/
theorem Mem.read_writeAll_eq (l : List (Nat × BitVec n)) (m m' : Mem n) (h : m.wf) (h' : m'.wf) (x : Nat)
    (hx : ∃ c ∈ l, c.1 = x) : (m.writeAll l).read x = (m'.writeAll l).read x := by
  induction l generalizing m m' with
  | nil => simp at hx
  | cons c l ih =>
    rw [Mem.writeAll_cons, Mem.writeAll_cons]
    by_cases hl : ∃ d ∈ l, d.1 = x
    · exact ih _ _ (Mem.wf_write _ _ _ h) (Mem.wf_write _ _ _ h') hl
    · push Not at hl
      rw [Mem.read_writeAll_other _ _ _ hl, Mem.read_writeAll_other _ _ _ hl]
      obtain ⟨d, hd, rfl⟩ := hx
      rcases List.mem_cons.mp hd with rfl | hd
      · rw [Mem.read_write_same _ _ _ h, Mem.read_write_same _ _ _ h']
      · exact absurd rfl (hl d hd)

/-- Stores to disjoint cells commute. -/
theorem Mem.writeAll_comm (m : Mem n) (h : m.wf) (l l' : List (Nat × BitVec n))
    (hd : ∀ c ∈ l, ∀ d ∈ l', c.1 ≠ d.1) : (m.writeAll l).writeAll l' = (m.writeAll l').writeAll l := by
  apply Mem.ext_of_read _ _ (Mem.wf_writeAll _ _ (Mem.wf_writeAll _ _ h))
    (Mem.wf_writeAll _ _ (Mem.wf_writeAll _ _ h))
  intro x
  by_cases h1 : ∃ c ∈ l, c.1 = x
  · obtain ⟨c, hc, hcx⟩ := h1
    rw [Mem.read_writeAll_other (m.writeAll l) l' x fun d hd' hx => hd c hc d hd' (hcx.trans hx.symm)]
    exact Mem.read_writeAll_eq _ _ _ h (Mem.wf_writeAll _ _ h) x ⟨c, hc, hcx⟩
  · push Not at h1
    rw [Mem.read_writeAll_other (m.writeAll l') l x h1]
    by_cases h2 : ∃ c ∈ l', c.1 = x
    · exact Mem.read_writeAll_eq _ _ _ (Mem.wf_writeAll _ _ h) h x h2
    · push Not at h2
      rw [Mem.read_writeAll_other _ _ _ h2, Mem.read_writeAll_other _ _ _ h2, Mem.read_writeAll_other _ _ _ h1]

/-- What an earlier command leaves a later one to do: if it stores nothing the later one reads, the later one is
admitted as before and stores the same cells. -/
theorem exec_after_disjoint (s : State) (i j : Instr) (hf : s.fault = .none) (hi : s.admission i = .none)
    (hj : s.admission j = .none) (ni : i ≠ .init) (nj : j ≠ .init)
    (h1 : ∀ x ∈ (footprint s.cfg.bps i).pixWrite, x ∉ (footprint s.cfg.bps j).pixRead)
    (h2 : ∀ x ∈ (footprint s.cfg.bps i).coefWrite, x ∉ (footprint s.cfg.bps j).coefRead) :
    exec j (afterCommand s i) = .next (afterCommand (afterCommand s i) j) ∧
      pixCells (afterCommand s i) j = pixCells s j ∧ coefCells (afterCommand s i) j = coefCells s j := by
  have bi := ((admission_eq_none s i).mp hi).resolve_left ni
  have bj := ((admission_eq_none s j).mp hj).resolve_left nj
  have hp : ∀ x : Nat, (x : Int) ∈ (footprint s.cfg.bps j).pixRead →
      s.pixel x = (afterCommand s i).pixel x := fun x hx =>
    (Mem.read_writeAll_other _ _ _ fun c hc hcx =>
      h1 x ((mem_pixWrite_iff bi.2.1 x).mpr ⟨c, hc, by rw [hcx]⟩) hx).symm
  have hq : ∀ x : Nat, (x : Int) ∈ (footprint s.cfg.bps j).coefRead →
      s.coefficient x = (afterCommand s i).coefficient x := fun x hx => by
    unfold State.coefficient
    rw [afterCommand_coef, Mem.read_writeAll_other _ _ _ fun c hc hcx =>
      h2 x ((mem_coefWrite_iff x).mpr ⟨c, hc, by rw [hcx]⟩) hx]
  have hc := cells_congr (s' := afterCommand s i) bj.2.1 rfl hp hq
  refine ⟨?_, hc.1.symm, hc.2.symm⟩
  rw [exec_eq_carryOut]
  refine carryOut_of_admitted _ _ _ hf ((admission_eq_none _ _).mpr (.inr ⟨?_, bj.2.1, ?_, bj.2.2.2⟩))
  · rw [afterCommand_initDone]; simp [bi.1]
  · rw [← sparse_congr _ hq]; exact bj.2.2.1

end Sys2Proof.Machine
end

