-- ==== Sys2Proof/Laws/PerInstr.lean ====
section
/-! SUPPORT. Statements made for every command, one lemma per constructor. The family `Layout` says which field of
the encoded word holds what (spec/30_encoding.md R61 to R65). -/

namespace Sys2Proof.Laws.Layout

/-- The fields `OP`, `TWO`, `THRESH`, `A`, `B` of a command's word (R62, R64). -/
def fields : Instr → Nat × Nat × Nat × Nat × Nat
  | .init => (0x01, 0, 0, 0, 0)
  | .transform a b => (0x10, 0, 0, a, b)
  | .transform2 a b => (0x10, 1, 0, a, b)
  | .transformDc a b => (0x11, 0, 0, a, b)
  | .transformAc3 a b => (0x12, 0, 0, a, b)
  | .transformWht a b => (0x13, 0, 0, a, b)
  | .simpleVfilter16 b t => (0x20, 0, t, 0, b)
  | .simpleHfilter16 b t => (0x21, 0, t, 0, b)
  | .simpleVfilter16i b t => (0x22, 0, t, 0, b)
  | .simpleHfilter16i b t => (0x23, 0, t, 0, b)

/-- The word of a well-formed command holds its fields at the places of R61, and its reserved fields are zero. -/
def Statement (i : Instr) : Prop :=
  i.wf = true →
    (field (encode i) 0 8, field (encode i) 8 1, field (encode i) 16 8, field (encode i) 32 16,
      field (encode i) 48 16) = fields i ∧
    field (encode i) 9 7 = 0 ∧ field (encode i) 24 8 = 0

/-- The fields of a packed word are the packed values. -/
theorem field_pack {op two t a b : Nat} (h1 : op < 256) (h2 : two < 2) (h3 : t < 256) (h4 : a < 65536)
    (h5 : b < 65536) :
    field (pack op two t a b) 0 8 = op ∧ field (pack op two t a b) 8 1 = two ∧
    field (pack op two t a b) 16 8 = t ∧ field (pack op two t a b) 32 16 = a ∧
    field (pack op two t a b) 48 16 = b ∧ field (pack op two t a b) 9 7 = 0 ∧
    field (pack op two t a b) 24 8 = 0 := by
  have hn : (pack op two t a b).toNat = op + two * 2 ^ 8 + t * 2 ^ 16 + a * 2 ^ 32 + b * 2 ^ 48 := by
    simp only [pack, BitVec.toNat_ofNat]; omega
  unfold field
  rw [hn]
  omega

theorem of_pack {i : Instr} {op two t a b : Nat} (he : encode i = pack op two t a b)
    (hf : fields i = (op, two, t, a, b)) (h : op < 256 ∧ two < 2 ∧ t < 256 ∧ a < 65536 ∧ b < 65536) :
    (field (encode i) 0 8, field (encode i) 8 1, field (encode i) 16 8, field (encode i) 32 16,
      field (encode i) 48 16) = fields i ∧
    field (encode i) 9 7 = 0 ∧ field (encode i) 24 8 = 0 := by
  obtain ⟨e1, e2, e3, e4, e5, e6, e7⟩ := field_pack h.1 h.2.1 h.2.2.1 h.2.2.2.1 h.2.2.2.2
  rw [he, hf, e1, e2, e3, e4, e5]
  exact ⟨rfl, e6, e7⟩

theorem init : Statement .init := fun _ => of_pack rfl rfl (by decide)

theorem transform (a b : Nat) : Statement (.transform a b) := fun h => of_pack rfl rfl (by
  simp only [Instr.wf, Bool.and_eq_true, decide_eq_true_eq, fits] at h; omega)

theorem transform2 (a b : Nat) : Statement (.transform2 a b) := fun h => of_pack rfl rfl (by
  simp only [Instr.wf, Bool.and_eq_true, decide_eq_true_eq, fits] at h; omega)

theorem transformDc (a b : Nat) : Statement (.transformDc a b) := fun h => of_pack rfl rfl (by
  simp only [Instr.wf, Bool.and_eq_true, decide_eq_true_eq, fits] at h; omega)

theorem transformAc3 (a b : Nat) : Statement (.transformAc3 a b) := fun h => of_pack rfl rfl (by
  simp only [Instr.wf, Bool.and_eq_true, decide_eq_true_eq, fits] at h; omega)

theorem transformWht (a b : Nat) : Statement (.transformWht a b) := fun h => of_pack rfl rfl (by
  simp only [Instr.wf, Bool.and_eq_true, decide_eq_true_eq, fits] at h; omega)

theorem simpleVfilter16 (b t : Nat) : Statement (.simpleVfilter16 b t) := fun h => of_pack rfl rfl (by
  simp only [Instr.wf, Bool.and_eq_true, decide_eq_true_eq, fits] at h; omega)

theorem simpleHfilter16 (b t : Nat) : Statement (.simpleHfilter16 b t) := fun h => of_pack rfl rfl (by
  simp only [Instr.wf, Bool.and_eq_true, decide_eq_true_eq, fits] at h; omega)

theorem simpleVfilter16i (b t : Nat) : Statement (.simpleVfilter16i b t) := fun h => of_pack rfl rfl (by
  simp only [Instr.wf, Bool.and_eq_true, decide_eq_true_eq, fits] at h; omega)

theorem simpleHfilter16i (b t : Nat) : Statement (.simpleHfilter16i b t) := fun h => of_pack rfl rfl (by
  simp only [Instr.wf, Bool.and_eq_true, decide_eq_true_eq, fits] at h; omega)

end Sys2Proof.Laws.Layout
end

