-- ==== Sys2Proof/Machine/Asm.lean ====
section
/-! DEFINITION. The assembler syntax and its pseudo-forms (spec/30_encoding.md R71, R72). -/

namespace Sys2Proof.Machine

/-- One operand of an assembly line. -/
inductive AsmOperand where
  /-- `c<n>`, a `COEF` word address. -/
  | coef (n : Nat)
  /-- `p<n>`, a `PIX` byte address; `p(x,y)` has become one (R72). -/
  | pix (n : Nat)
  /-- A plain decimal number, the threshold. -/
  | imm (n : Nat)
  /-- `two` (true) or `one` (false), the `doTwo` argument of R72. -/
  | doTwo (v : Bool)
  deriving DecidableEq, Repr

/-- The value of a digit in base 10 or 16. -/
def digitValue (base : Nat) (c : Char) : Option Nat :=
  let v :=
    if '0' ≤ c ∧ c ≤ '9' then c.toNat - '0'.toNat
    else if 'a' ≤ c ∧ c ≤ 'f' then c.toNat - 'a'.toNat + 10
    else if 'A' ≤ c ∧ c ≤ 'F' then c.toNat - 'A'.toNat + 10
    else 16
  if v < base then some v else none

/-- Digits, most significant first, after the value `acc`. -/
def digits (base acc : Nat) : List Char → Option Nat
  | [] => some acc
  | c :: cs => (digitValue base c).bind fun v => digits base (acc * base + v) cs

/-- A decimal number, not empty. -/
def decimal (cs : List Char) : Option Nat := if cs = [] then none else digits 10 0 cs

/-- A number, decimal or `0x` hexadecimal (R71). -/
def number : List Char → Option Nat
  | '0' :: 'x' :: c :: cs => digits 16 0 (c :: cs)
  | cs => decimal cs

/-- Leading and trailing spaces removed. -/
def trimSpaces (cs : List Char) : List Char :=
  ((cs.dropWhile (· = ' ')).reverse.dropWhile (· = ' ')).reverse

/-- The parts between commas that stand outside parentheses; `part` is the part being read, reversed. -/
def splitOperands (depth : Nat) (part : List Char) : List Char → List (List Char)
  | [] => [part.reverse]
  | c :: cs =>
    if c = ',' ∧ depth = 0 then part.reverse :: splitOperands 0 [] cs
    else if c = '(' then splitOperands (depth + 1) (c :: part) cs
    else if c = ')' then splitOperands (depth - 1) (c :: part) cs
    else splitOperands depth (c :: part) cs

/-- The inside of `(x,y)` as two numbers. -/
def coordinates (cs : List Char) : Option (Nat × Nat) :=
  match (splitOperands 0 [] cs).map trimSpaces with
  | [xs, ys] =>
    match ys.reverse with
    | ')' :: rev => (number xs).bind fun x => (number (trimSpaces rev.reverse)).map fun y => (x, y)
    | _ => none
  | _ => none

/-- One operand; `p(x,y)` is the address `y*BPS + x` (R72). -/
def parseOperand (bps : Nat) : List Char → Option AsmOperand
  | 'c' :: cs => (number cs).map .coef
  | 'p' :: '(' :: cs => (coordinates cs).map fun xy => .pix (blockAddr bps 0 xy.2 xy.1)
  | 'p' :: cs => (number cs).map .pix
  | ['t', 'w', 'o'] => some (.doTwo true)
  | ['o', 'n', 'e'] => some (.doTwo false)
  | cs => (decimal cs).map .imm

/-- The command of a mnemonic and its operands (R71), pseudo-form (2) of R72 included. -/
def assemble (mnemonic : String) (ops : List AsmOperand) : Option Instr :=
  match ops with
  | [] => if mnemonic = "init" then some .init else none
  | [.coef a, .pix b] =>
    if mnemonic = "transform" then some (.transform a b)
    else if mnemonic = "transform2" then some (.transform2 a b)
    else if mnemonic = "transform.dc" then some (.transformDc a b)
    else if mnemonic = "transform.ac3" then some (.transformAc3 a b)
    else none
  | [.coef a, .pix b, .doTwo two] =>
    if mnemonic = "transform" then some (if two then .transform2 a b else .transform a b) else none
  | [.coef a, .coef b] => if mnemonic = "transform.wht" then some (.transformWht a b) else none
  | [.pix b, .imm t] =>
    if mnemonic = "vfilter16" then some (.simpleVfilter16 b t)
    else if mnemonic = "hfilter16" then some (.simpleHfilter16 b t)
    else if mnemonic = "vfilter16i" then some (.simpleVfilter16i b t)
    else if mnemonic = "hfilter16i" then some (.simpleHfilter16i b t)
    else none
  | _ => none

/-- The operands of a line, the mnemonic taken off. -/
def parseOperands (bps : Nat) (cs : List Char) : Option (List AsmOperand) :=
  if cs = [] then some [] else ((splitOperands 0 [] cs).map trimSpaces).mapM (parseOperand bps)

/-- One line of assembly: a command whose operands fit their fields, or none. A `;` starts a comment (R71). -/
def parseLine (bps : Nat) (line : List Char) : Option Instr :=
  let code := trimSpaces (line.takeWhile (· ≠ ';'))
  let mnemonic := code.takeWhile (· ≠ ' ')
  (parseOperands bps (trimSpaces (code.dropWhile (· ≠ ' ')))).bind fun ops =>
    (assemble (String.ofList mnemonic) ops).filter Instr.wf

/-- The line R71 writes for a command. -/
def asmLine : Instr → String
  | .init => "init"
  | .transform a b => "transform c" ++ toString a ++ ", p" ++ toString b
  | .transform2 a b => "transform2 c" ++ toString a ++ ", p" ++ toString b
  | .transformDc a b => "transform.dc c" ++ toString a ++ ", p" ++ toString b
  | .transformAc3 a b => "transform.ac3 c" ++ toString a ++ ", p" ++ toString b
  | .transformWht a b => "transform.wht c" ++ toString a ++ ", c" ++ toString b
  | .simpleVfilter16 b t => "vfilter16 p" ++ toString b ++ ", " ++ toString t
  | .simpleHfilter16 b t => "hfilter16 p" ++ toString b ++ ", " ++ toString t
  | .simpleVfilter16i b t => "vfilter16i p" ++ toString b ++ ", " ++ toString t
  | .simpleHfilter16i b t => "hfilter16i p" ++ toString b ++ ", " ++ toString t

end Sys2Proof.Machine
end

