-- ==== Sys2Proof/Tests/Slice0.lean ====
section
/-! SUPPORT. Tests. Every expected value is written out from spec/30_encoding.md R74 or spec/95_test_vectors.md, named
at each test; the `witness_` theorems show that the hypotheses of a statement can all be met, clause by clause. -/

namespace Sys2Proof.Tests

open Sys2Proof.Machine

/-! ## Helpers -/

/-- An initialised core with given contents, in the configuration of spec/95_test_vectors.md. -/
def ready (pix : Mem 8) (coef : Mem 16) : State :=
  { State.resetOf Config.testVectors pix coef with initDone := true }

/-- Samples at consecutive addresses. -/
def samples (base : Nat) (vs : List Nat) : Mem 8 :=
  vs.zipIdx.map fun vk => (base + vk.2, BitVec.ofNat 8 vk.1)

/-- Coefficients at consecutive addresses, canonical. -/
def coefs (base : Nat) (vs : List Int) : Mem 16 :=
  Mem.ofContents 512 (vs.zipIdx.map fun vk => (base + vk.2, BitVec.ofInt 16 vk.1))

def afterStep (o : Host.Outcome State Fault Refusal) : Option State :=
  match o with
  | .next t => some t
  | .fault _ => none
  | .refused _ => none

/-- The pixels at consecutive addresses after a command, and the latch. -/
def pixelsAfter (o : Host.Outcome State Fault Refusal) (base n : Nat) : Option (List Nat × FaultClass) :=
  (afterStep o).map fun t => ((List.range n).map fun k => (t.pixel (base + k)).toNat, t.fault)

/-- The coefficients at addresses `base + stride * k` after a command, and the latch. -/
def coefsAfter (o : Host.Outcome State Fault Refusal) (base stride n : Nat) : Option (List Int × FaultClass) :=
  (afterStep o).map fun t => ((List.range n).map fun k => t.coefficient (base + stride * k), t.fault)

/-- The latch and `INIT_DONE` after a word. -/
def latchAfter (o : Host.Outcome State Fault Refusal) : Option (FaultClass × Bool) :=
  (afterStep o).map fun t => (t.fault, t.initDone)

/-- A block from its 16 values in raster order. -/
def block (vs : List Int) : Block := Block.ofFn fun r k => vs.getD (4 * r + k) 0

/-! ## Well-formedness refuses what does not fit (R61) -/

theorem test_wf_refuses_a_of_17_bits : Instr.wf (.transform 65536 0) = false := by decide
theorem test_wf_refuses_b_of_17_bits : Instr.wf (.transform2 0 65536) = false := by decide
theorem test_wf_refuses_dc_operands :
    Instr.wf (.transformDc 65536 0) = false ∧ Instr.wf (.transformDc 0 65536) = false := by decide
theorem test_wf_refuses_ac3_operands :
    Instr.wf (.transformAc3 65536 0) = false ∧ Instr.wf (.transformAc3 0 65536) = false := by decide
theorem test_wf_refuses_wht_operands :
    Instr.wf (.transformWht 65536 0) = false ∧ Instr.wf (.transformWht 0 65536) = false := by decide
theorem test_wf_refuses_threshold_of_9_bits :
    Instr.wf (.simpleVfilter16 0 256) = false ∧ Instr.wf (.simpleHfilter16 0 256) = false ∧
    Instr.wf (.simpleVfilter16i 0 256) = false ∧ Instr.wf (.simpleHfilter16i 0 256) = false := by decide
theorem test_wf_refuses_filter_address :
    Instr.wf (.simpleVfilter16 65536 0) = false ∧ Instr.wf (.simpleHfilter16 65536 0) = false ∧
    Instr.wf (.simpleVfilter16i 65536 0) = false ∧ Instr.wf (.simpleHfilter16i 65536 0) = false := by decide

/-! ## Decoding words written out from the spec (95_test_vectors.md section 6) -/

theorem test_decode_init : decode 0x0000000000000001 = .command .init := by decide
theorem test_decode_transform : decode 0x039C01F000000010 = .command (.transform 496 924) := by decide
theorem test_decode_transform2 : decode 0x039801E000000110 = .command (.transform2 480 920) := by decide
theorem test_decode_transform_dc : decode 0x0048001000000011 = .command (.transformDc 16 72) := by decide
theorem test_decode_transform_ac3 : decode 0x0080002000000012 = .command (.transformAc3 32 128) := by decide
theorem test_decode_transform_wht : decode 0xFFFFFFFF00000013 = .command (.transformWht 65535 65535) := by decide
theorem test_decode_vfilter16 : decode 0x0080000000780020 = .command (.simpleVfilter16 128 120) := by decide
theorem test_decode_hfilter16 : decode 0x00040000003C0021 = .command (.simpleHfilter16 4 60) := by decide
theorem test_decode_vfilter16i : decode 0x00440000000C0022 = .command (.simpleVfilter16i 68 12) := by decide
theorem test_decode_hfilter16i : decode 0xFFFF000000FF0023 = .command (.simpleHfilter16i 65535 255) := by decide

/-- The illegal words of section 6 whose reserved fields are zero and whose opcode is not assigned. -/
theorem test_decode_unknown_opcode :
    [(0x0000000000000000 : Word), 0x0000000000000002, 0x0000000000000014, 0x0000000000000024].map decode =
      List.replicate 4 (.illegal .unknownOpcode) := by decide
/-- The illegal words of section 6 with a field set that the format does not use. -/
theorem test_decode_unused_field :
    [(0x0001000000000001 : Word), 0x0000000100000001, 0x0000000000000101, 0x0000000000050011,
        0x0000000000000111, 0x0000000000000113, 0x0000000000010010, 0x0000000000000120,
        0x0040000100000020].map decode = List.replicate 9 (.illegal .unusedField) := by decide
/-- The illegal words of section 6 with a reserved field set. -/
theorem test_decode_reserved_field :
    [(0xFFFFFFFFFFFFFFFF : Word), 0x0000000000000210, 0x0000000001000010, 0x0000000080000023].map decode =
      List.replicate 4 (.illegal .reservedField) := by decide

/-- The rows of R66 are pairwise exclusive: two rows' patterns differ in a bit that both masks keep. -/
theorem test_rows_are_exclusive :
    opcodeRows.Pairwise fun r r' => (r.pattern ^^^ r'.pattern) &&& (r.mask &&& r'.mask) ≠ 0 := by decide

theorem test_decodeTableWord :
    decodeTableWord 64 0x0048001000000011 = some (.transformDc 16 72) ∧
    decodeTableWord 32 0xFFFFFFFF00000110 = some (.transform2 0 0) ∧
    decodeTableWord 64 0x0000000000000120 = none := by decide

/-! ## Assembly (R71, R72; the lines of section 6) -/

theorem test_asm_lines :
    parseLine 32 "init ; start".toList = some .init ∧
    parseLine 32 "transform.wht c256, c0".toList = some (.transformWht 256 0) ∧
    parseLine 32 "hfilter16 p4, 60".toList = some (.simpleHfilter16 4 60) ∧
    parseLine 32 "transform.dc c0x10, p72".toList = some (.transformDc 16 72) ∧
    parseLine 32 "vfilter16 p64, 256".toList = none := by decide

theorem test_asm_pseudo_forms :
    parseLine 32 "vfilter16i p(4,2), 12".toList = some (.simpleVfilter16i 68 12) ∧
    parseLine 32 "transform c0, p0, two".toList = some (.transform2 0 0) ∧
    parseLine 32 "transform c0, p0, one".toList = some (.transform 0 0) := by decide

/-! ## One step (95_test_vectors.md) -/

/-- `INIT` as the first command after reset. -/
theorem test_init_step : latchAfter (step (State.reset.withFetchWord 64 0x01)) = some (.none, true) := by decide

/-- Run X1: a data command before `INIT`. -/
theorem test_transform_before_init :
    latchAfter (step (State.reset.withFetchWord 64 0x10)) = some (.notInitialized, false) := by decide

/-- Run X4: an illegal word. -/
theorem test_illegal_step :
    latchAfter (step (State.reset.withFetchWord 64 0x00)) = some (.illegalCommand, false) := by decide

/-- T4's coefficients at `A = 0` and its prediction at `B = 0`, row 0. -/
def t4State : State :=
  ready (samples 0 [10, 20, 30, 40] ++ samples 32 [50, 60, 70, 80] ++ samples 64 [90, 100, 110, 120] ++
      samples 96 [130, 140, 150, 160])
    (coefs 0 [100, -50, 25, -12, 60, -30, 15, -7, -40, 20, -10, 5, 8, -4, 2, -1])

/-- T4: an order-sensitive block. -/
theorem test_transform_T4 :
    pixelsAfter (exec (.transform 0 0) t4State) 0 4 = some ([19, 31, 45, 75], .none) ∧
    pixelsAfter (exec (.transform 0 0) t4State) 96 4 = some ([129, 138, 148, 154], .none) := by decide

/-- T6: the residual at the negative extreme. -/
theorem test_residual_T6 :
    residual (block [-32768, -32768, -32768, -32768, -32768, -32768, -32768, -32768, -32768, -32768, -32768, -32768,
        -32768, -32768, -32768, -32768]) =
      block [-60643, 12063, -12062, -2399, 12063, -2399, 2399, 477, -12063, 2399, -2399, -477, -2399, 477, -477,
        -95] := by decide

/-- T9: the second block of a `TRANSFORM2` at `A = 0`, `B = 0` takes its coefficients at 16, its pixels at columns 4..7;
here rows 0 and 3. -/
theorem test_transform2_second_block_T9 :
    let s := ready (samples 4 [98, 100, 102, 104] ++ samples 100 [107, 109, 111, 113])
      (coefs 16 [-200, 0, 0, 0, 0, 5])
    pixelsAfter (exec (.transform2 0 0) s) 4 4 = some ([74, 75, 77, 78], .none) ∧
    pixelsAfter (exec (.transform2 0 0) s) 100 4 = some ([81, 84, 87, 89], .none) := by decide

/-- Table 3.1 with `COEF[A] = -1000`: pixels 0, 128, 255 become 0, 3, 130. -/
theorem test_transform_dc :
    pixelsAfter (exec (.transformDc 0 0) (ready (samples 1 [128, 255]) (coefs 0 [-1000]))) 0 3 =
      some ([0, 3, 130], .none) := by decide

/-- Run X8: `COEF[15] = -1` is a sparsity violation. -/
theorem test_transform_dc_sparsity :
    latchAfter (exec (.transformDc 0 0) (ready [] (coefs 0 [80, 0, 0, 0, 0, 0, 0, 0, 0, 0, 0, 0, 0, 0, 0, -1]))) =
      some (.sparsity, true) := by decide

/-- A4: `DC = 5`, `COEF[A+1] = 3`, `COEF[A+4] = -3`. -/
theorem test_ac3_residual_A4 :
    ac3Residual 5 3 (-3) = block [1, 0, 0, 0, 1, 1, 0, 0, 1, 1, 1, 1, 2, 1, 1, 1] := by decide

/-- Runs X9 and X11: coefficient 4 may be set, coefficient 2 may not. -/
theorem test_ac3_sparsity :
    latchAfter (exec (.transformAc3 0 0) (ready [] (coefs 0 [0, 80, 0, 0, 1]))) = some (.none, true) ∧
    latchAfter (exec (.transformAc3 0 0) (ready [] (coefs 0 [0, 0, 1]))) = some (.sparsity, true) := by decide

/-- W8 with its outputs over its inputs (section 4, Overlap): all inputs are read first. -/
theorem test_wht_W8_overlap :
    let s := ready [] (coefs 0 [320, -48, 16, 0, 64, -16, 0, 8, -32, 0, 8, 0, 16, 0, 0, -8])
    coefsAfter (exec (.transformWht 0 0) s) 0 16 16 =
      some ([41, 35, 51, 57, 45, 39, 59, 57, 33, 35, 39, 45, 25, 19, 27, 33], .none) ∧
    coefsAfter (exec (.transformWht 0 0) s) 1 1 3 = some ([-48, 16, 0], .none) := by decide

/-- W13: the negative extreme saturates. -/
theorem test_wht_W13 :
    coefOf (roundWht ((whtSum (Block.ofFn fun _ _ => -32768)).get 0 0)) = BitVec.ofInt 16 (-32768) := by decide

/-- F10, F17, F26, F37: the mask boundary and the staged saturation. -/
theorem test_filt_positions :
    filt 100 100 110 110 25 = (102, 107) ∧ filt 100 100 110 110 24 = (100, 110) ∧
    filt 255 255 0 0 255 = (239, 16) ∧ filt 200 100 101 20 100 = (115, 86) ∧
    filt 255 0 50 0 255 = (15, 35) := by decide

/-- Rows 2 and 3 white in 17 columns. -/
def e1State : State :=
  ready (samples 64 (List.replicate 17 255) ++ samples 96 (List.replicate 17 255)) []

/-- E1: a hard horizontal step; column 16 is not filtered. -/
theorem test_vfilter16_E1 :
    pixelsAfter (exec (.simpleVfilter16 64 255) e1State) 47 2 = some ([15, 0], .none) ∧
    pixelsAfter (exec (.simpleVfilter16 64 255) e1State) 79 2 = some ([240, 255], .none) := by decide

/-- E2: a hard vertical step, rows 0, 15 and 16 (the last is not filtered). -/
theorem test_hfilter16_E2 :
    let s := ready (samples 2 [255, 255] ++ samples 482 [255, 255] ++ samples 514 [255, 255]) []
    pixelsAfter (exec (.simpleHfilter16 2 255) s) 0 4 = some ([0, 15, 240, 255], .none) ∧
    pixelsAfter (exec (.simpleHfilter16 2 255) s) 480 4 = some ([0, 15, 240, 255], .none) ∧
    pixelsAfter (exec (.simpleHfilter16 2 255) s) 512 4 = some ([0, 0, 255, 255], .none) := by decide

set_option maxRecDepth 8000 in
/-- F15 and F17 at column 0 of the edges at rows 4 and 12 of the macroblock at 0. -/
theorem test_vfilter16i_positions :
    let s := ready [(128, 255), (160, 255), (320, 255), (352, 255)] []
    pixelsAfter (exec (.simpleVfilter16i 0 255) s) 96 1 = some ([15], .none) ∧
    pixelsAfter (exec (.simpleVfilter16i 0 255) s) 128 1 = some ([240], .none) ∧
    pixelsAfter (exec (.simpleVfilter16i 0 255) s) 352 1 = some ([239], .none) ∧
    pixelsAfter (exec (.simpleVfilter16i 0 255) s) 384 1 = some ([16], .none) := by decide

set_option maxRecDepth 8000 in
/-- F15 and F17 in row 15 at the edges at columns 4 and 12 of the macroblock at 0. -/
theorem test_hfilter16i_positions :
    let s := ready (samples 484 [255, 255] ++ samples 490 [255, 255]) []
    pixelsAfter (exec (.simpleHfilter16i 0 255) s) 483 2 = some ([15, 240], .none) ∧
    pixelsAfter (exec (.simpleHfilter16i 0 255) s) 491 2 = some ([239, 16], .none) := by decide

/-- Runs X5, X13, X22, X33: the first illegal operands. -/
theorem test_bounds_faults :
    latchAfter (exec (.simpleVfilter16 32 255) (ready [] [])) = some (.bounds, true) ∧
    latchAfter (exec (.transform 497 0) (ready [] [])) = some (.bounds, true) ∧
    latchAfter (exec (.transformWht 0 272) (ready [] [])) = some (.bounds, true) ∧
    latchAfter (exec (.simpleHfilter16i 531 255) (ready [] [])) = some (.bounds, true) := by decide

/-- The fault codes of R155. -/
theorem test_fault_codes :
    [FaultClass.none, .illegalCommand, .notInitialized, .bounds, .sparsity, .race].map FaultClass.code =
      [0, 1, 2, 3, 4, 5] := by decide

/-! ## Witnesses: the hypotheses of the statements can be met -/

/-- What most statements ask of a state. -/
abbrev Calm (s : State) (i : Instr) : Prop :=
  s.cfg.ok ∧ s.pix.wf ∧ s.coef.wf ∧ s.fault = .none ∧ s.raced i = false

/-- A core that is not initialised, canonical memories, another core beside it, and its host's list. -/
def twoCores (host : List HostAction) : State :=
  { State.resetOf Config.testVectors (samples 0 [1, 2]) (coefs 0 [8]) with
    higher := [{ initDone := true, fault := .none }], host := host }

theorem witness_DecodeOfEncode :
    Instr.wf .init = true ∧ Instr.wf (.transform 65535 65535) = true ∧ Instr.wf (.transform2 65535 0) = true ∧
    Instr.wf (.transformDc 0 65535) = true ∧ Instr.wf (.transformAc3 65535 65535) = true ∧
    Instr.wf (.transformWht 65535 65535) = true ∧ Instr.wf (.simpleVfilter16 65535 255) = true ∧
    Instr.wf (.simpleHfilter16 65535 0) = true ∧ Instr.wf (.simpleVfilter16i 0 255) = true ∧
    Instr.wf (.simpleHfilter16i 65535 255) = true := by decide

theorem witness_EncodeOfDecode :
    decode 0xFFFF000000FF0023 = .command (.simpleHfilter16i 65535 255) := by decide

theorem witness_WordIsRowsCommandExactlyWhenMaskedMatch :
    ∃ row ∈ opcodeRows, (0x039801E000000110 : Word) &&& row.mask = row.pattern ∧ row.mnemonic = "TRANSFORM2" := by
  decide

theorem witness_IllegalWordFaultsWithNoOtherEffect :
    (ready [] []).fault = .none ∧
    ∀ row ∈ opcodeRows, (0x0000000080000023 : Word) &&& row.mask ≠ row.pattern := by decide

theorem witness_StepExecutesDecodedCommand :
    let s := twoCores [.command 1 0x10 [{ space := .pix, addr := 999, kind := .read }]]
    s.host = .command 1 0x10 [{ space := .pix, addr := 999, kind := .read }] :: [] ∧
    (∃ t, ({ s with host := [] } : State).select 1 = some t ∧ t.initDone = true) ∧
    decode 0x10 = .command (.transform 0 0) ∧
    decode (BitVec.ofNat 64 (0x0048001000000011 % 2 ^ 64)) = .command (.transformDc 16 72) :=
  ⟨rfl, ⟨_, rfl, rfl⟩, by decide, by decide⟩

theorem witness_IdleCoreHoldsState : State.reset.host = [] := by decide

theorem witness_HostWritesOneCell :
    let s := twoCores [.writePix 1023 7]
    let s' := twoCores [.writeCoef 511 (-7)]
    s.pix.wf ∧ s.host = .writePix 1023 7 :: [] ∧ 1023 < s.cfg.pixSize ∧
    s'.coef.wf ∧ s'.host = .writeCoef 511 (-7) :: [] ∧ 511 < s'.cfg.coefSize := by decide

theorem witness_ResetClearsEveryCore :
    (twoCores [.reset [] [(3, 5)], .command 0 1 []]).host = .reset [] [(3, 5)] :: [.command 0 1 []] := by decide

theorem witness_FaultPriority_illegal : (ready [] []).fault = .none ∧ ∀ i, decode 0 ≠ .command i :=
  ⟨rfl, fun i h => by rw [show decode 0 = .illegal .unknownOpcode by decide] at h; cases h⟩

theorem witness_FaultPriority_notInitialized :
    State.reset.fault = .none ∧ decode 0x10 = .command (.transform 0 0) ∧ Instr.transform 0 0 ≠ .init ∧
    State.reset.initDone = false := by decide

theorem witness_FaultPriority_bounds :
    (ready [] []).fault = .none ∧ (ready [] []).initDone = true ∧
    decode 0x000001F100000010 = .command (.transform 497 0) ∧
    (∃ a ∈ (footprint 32 (.transform 497 0)).coefRead ++ (footprint 32 (.transform 497 0)).coefWrite,
      a < 0 ∨ ((ready [] []).cfg.coefSize : Int) ≤ a) ∧
    decode 0x0001000000FF0021 = .command (.simpleHfilter16 1 255) ∧
    (∃ a ∈ (footprint 32 (.simpleHfilter16 1 255)).pixRead ++ (footprint 32 (.simpleHfilter16 1 255)).pixWrite,
      a < 0 ∨ ((ready [] []).cfg.pixSize : Int) ≤ a) := by decide

theorem witness_FaultPriority_sparsity :
    let s := ready [] (coefs 0 [0, 0, 1])
    s.fault = .none ∧ s.initDone = true ∧ decode 0x11 = .command (.transformDc 0 0) ∧
    decode 0x12 = .command (.transformAc3 0 0) ∧
    (∀ i ∈ [Instr.transformDc 0 0, .transformAc3 0 0],
      (∀ a ∈ (footprint 32 i).coefRead ++ (footprint 32 i).coefWrite, 0 ≤ a ∧ a < (s.cfg.coefSize : Int)) ∧
      (∀ a ∈ (footprint 32 i).pixRead ++ (footprint 32 i).pixWrite, 0 ≤ a ∧ a < (s.cfg.pixSize : Int))) ∧
    s.coefficient (0 + 2) ≠ 0 := by decide

theorem witness_FaultPriority_admitted :
    let s := ready [] (coefs 0 [80, 0, 0, 0, 1])
    s.fault = .none ∧ s.initDone = true ∧ s.contention = [] ∧ decode 1 = .command .init ∧
    decode 0x12 = .command (.transformAc3 0 0) ∧
    (∀ a ∈ (footprint 32 (.transformAc3 0 0)).coefRead ++ (footprint 32 (.transformAc3 0 0)).coefWrite,
      0 ≤ a ∧ a < (s.cfg.coefSize : Int)) ∧
    (∀ a ∈ (footprint 32 (.transformAc3 0 0)).pixRead ++ (footprint 32 (.transformAc3 0 0)).pixWrite,
      0 ≤ a ∧ a < (s.cfg.pixSize : Int)) ∧
    (∀ m ∈ List.range 16, 2 ≤ m → m ≠ 4 → s.coefficient (0 + m) = 0) := by decide

/-- The last legal and the first illegal operands of runs X13 to X34. -/
theorem test_bounds_limits :
    [inBounds Config.testVectors (.transform 496 924), inBounds Config.testVectors (.transform2 480 920),
      inBounds Config.testVectors (.transformWht 496 271), inBounds Config.testVectors (.simpleVfilter16 64 0),
      inBounds Config.testVectors (.simpleVfilter16 976 0), inBounds Config.testVectors (.simpleHfilter16 2 0),
      inBounds Config.testVectors (.simpleHfilter16 542 0), inBounds Config.testVectors (.simpleVfilter16i 592 0),
      inBounds Config.testVectors (.simpleHfilter16i 530 0)] = List.replicate 9 true ∧
    [inBounds Config.testVectors (.transform 497 0), inBounds Config.testVectors (.transform2 0 921),
      inBounds Config.testVectors (.transformWht 0 272), inBounds Config.testVectors (.simpleVfilter16 32 0),
      inBounds Config.testVectors (.simpleVfilter16 977 0), inBounds Config.testVectors (.simpleHfilter16 1 0),
      inBounds Config.testVectors (.simpleHfilter16 543 0), inBounds Config.testVectors (.simpleVfilter16i 593 0),
      inBounds Config.testVectors (.simpleHfilter16i 531 0)] = List.replicate 9 false := by decide

theorem witness_FaultingCommandChangesOnlyTheLatch :
    State.reset.runWord 0 = .next { State.reset with fault := .illegalCommand } ∧
    ({ State.reset with fault := .illegalCommand } : State).fault ≠ State.reset.fault := ⟨rfl, by decide⟩

theorem witness_LatchedFaultStopsEveryCommand :
    ({ ready [] [] with fault := .bounds } : State).fault ≠ .none ∧
    ({ twoCores [.reset [] []] with fault := .race } : State).fault ≠ .none ∧
    ({ twoCores [.reset [] []] with fault := .race } : State).host = .reset [] [] :: [] := by decide

theorem witness_AdmittedCommandCompletes :
    t4State.fault = .none ∧ t4State.admission (.transform 0 0) = .none ∧
    State.reset.admission .init = .none ∧
    ({ t4State with pix := [(3, 9)], coef := [] } : State).admission (.transform 0 0) ≠ .sparsity := by decide

/-- A core that has faulted and is given another word; and the other core's latch. -/
def faultedCores : State := { twoCores [.command 0 0 []] with fault := .race, initDone := true }

theorem witness_OnlyResetClearsLatchAndInitDone :
    faultedCores.host = .command 0 0 [] :: [] ∧ (∀ pix coef, HostAction.command 0 0 [] ≠ .reset pix coef) ∧
    step faultedCores = .next { faultedCores with host := [] } ∧ faultedCores.cores[0]? = some ⟨true, .race⟩ :=
  ⟨rfl, fun _ _ h => (by cases h), rfl, rfl⟩

theorem witness_CommandLeavesOtherCoresAlone :
    (twoCores [.command 0 1 []]).host = .command 0 1 [] :: [] ∧
    step (twoCores [.command 0 1 []]) = .next { twoCores [] with initDone := true } ∧
    (1 : Nat) ≠ 0 ∧ (twoCores [.command 0 1 []]).cores[1]? = some ⟨true, .none⟩ :=
  ⟨rfl, rfl, by decide, rfl⟩

theorem witness_InterferenceIsRace_pix :
    let w : Access := { space := .pix, addr := 99, kind := .write }
    let r : Access := { space := .pix, addr := 0, kind := .read }
    let s := { ready [] [] with contention := [w, r] }
    s.fault = .none ∧ s.initDone = true ∧ inBounds s.cfg (.transform 0 0) = true ∧
    s.sparse (.transform 0 0) = true ∧ w ∈ s.contention ∧ r ∈ s.contention ∧ Instr.transform 0 0 ≠ .init ∧
    (w.addr : Int) ∈ (footprint s.cfg.bps (.transform 0 0)).pixRead ++
      (footprint s.cfg.bps (.transform 0 0)).pixWrite ∧
    (r.addr : Int) ∈ (footprint s.cfg.bps (.transform 0 0)).pixWrite := by decide

theorem witness_InterferenceIsRace_coef :
    let w : Access := { space := .coef, addr := 15, kind := .write }
    let r : Access := { space := .coef, addr := 255, kind := .read }
    let s := { ready [] [] with contention := [w, r] }
    s.fault = .none ∧ s.initDone = true ∧ inBounds s.cfg (.transformWht 0 15) = true ∧
    s.sparse (.transformWht 0 15) = true ∧ w ∈ s.contention ∧ r ∈ s.contention ∧ Instr.transformWht 0 15 ≠ .init ∧
    (w.addr : Int) ∈ (footprint s.cfg.bps (.transformWht 0 15)).coefRead ++
      (footprint s.cfg.bps (.transformWht 0 15)).coefWrite ∧
    (r.addr : Int) ∈ (footprint s.cfg.bps (.transformWht 0 15)).coefWrite := by decide

/-- Another agent that reads a cell the command only reads does not interfere (R49). -/
theorem test_reading_a_read_only_cell_is_no_race :
    ({ ready [] [] with contention := [{ space := .coef, addr := 0, kind := .read }] } : State).admission
      (.transform 0 0) = .none := by decide

theorem witness_CommandWritesOnlyItsWriteFootprint :
    (afterStep (exec (.transform 0 0) t4State)).isSome = true ∧
    ((200 : Nat) : Int) ∉ (footprint t4State.cfg.bps (.transform 0 0)).pixWrite := by decide

theorem witness_ResultDependsOnlyOnReadFootprint :
    let s := ready [(0, 7)] [(0, 8)]
    let s' := ready [(0, 7), (500, 9)] [(0, 8), (400, 9)]
    s.pix.wf ∧ s'.pix.wf ∧ s.coef.wf ∧ s'.coef.wf ∧ s.cfg = s'.cfg ∧ s.fault = .none ∧ s'.fault = .none ∧
    s.admission (.transform 0 0) = .none ∧ s'.admission (.transform 0 0) = .none ∧
    (∀ a ∈ (footprint s.cfg.bps (.transform 0 0)).pixRead, s.pixel a.toNat = s'.pixel a.toNat) ∧
    (∀ a ∈ (footprint s.cfg.bps (.transform 0 0)).coefRead,
      s.coefficient a.toNat = s'.coefficient a.toNat) ∧
    (afterStep (exec (.transform 0 0) s)).isSome = true ∧
    (afterStep (exec (.transform 0 0) s')).isSome = true := by decide

theorem witness_FootprintCellsAreDistinct : (16 : Nat) ≤ 16 ∧ Config.ok { bps := 16, pixSize := 1, coefSize := 1 } := by
  decide

theorem witness_DisjointCommandsCommute :
    let s := ready [] [(0, 8)]
    let i := Instr.transform 0 0
    let j := Instr.transformWht 16 32
    s.pix.wf ∧ s.coef.wf ∧ s.fault = .none ∧ s.admission i = .none ∧ s.admission j = .none ∧ i ≠ .init ∧
    j ≠ .init ∧
    (∀ x ∈ (footprint s.cfg.bps i).pixWrite,
      x ∉ (footprint s.cfg.bps j).pixRead ∧ x ∉ (footprint s.cfg.bps j).pixWrite) ∧
    (∀ x ∈ (footprint s.cfg.bps j).pixWrite, x ∉ (footprint s.cfg.bps i).pixRead) ∧
    (∀ x ∈ (footprint s.cfg.bps i).coefWrite,
      x ∉ (footprint s.cfg.bps j).coefRead ∧ x ∉ (footprint s.cfg.bps j).coefWrite) ∧
    (∀ x ∈ (footprint s.cfg.bps j).coefWrite, x ∉ (footprint s.cfg.bps i).coefRead) := by decide

/-- Two pixel commands side by side, the second at column 4. -/
theorem witness_DisjointCommandsCommute_pixels :
    let s := ready [] []
    s.admission (.transform 0 0) = .none ∧ s.admission (.transform 0 4) = .none ∧
    (∀ x ∈ (footprint s.cfg.bps (.transform 0 0)).pixWrite,
      x ∉ (footprint s.cfg.bps (.transform 0 4)).pixRead) := by decide

theorem witness_InitSetsInitDoneOnly : State.reset.fault = .none := by decide

theorem witness_InitIsIdempotent :
    exec .init State.reset = .next { State.reset with initDone := true } ∧ State.reset.fault = .none ∧
    (ready [] []).initDone = true := ⟨rfl, rfl, rfl⟩

/-- T4's first and second pass. -/
def t4First (r k : Nat) : Int :=
  [142, -73, 35, -18, 162, -81, 41, -19, 118, -59, 29, -15, -22, 13, -5, 4].getD (4 * r + k) 0

def t4Second (r k : Nat) : Int :=
  [71, 91, 123, 283, 86, 102, 140, 320, 60, 77, 101, 234, -9, -15, -19, -45].getD (4 * r + k) 0

theorem witness_TransformContract_completes :
    Calm t4State (.transform 0 0) ∧ t4State.initDone = true ∧ 0 + 15 < t4State.cfg.coefSize ∧
    0 + 3 * t4State.cfg.bps + 3 < t4State.cfg.pixSize ∧
    (∀ k < 4, (⟨t4First 0 k, t4First 1 k, t4First 2 k, t4First 3 k⟩ : Quad) =
      butterfly ⟨t4State.coefficient (0 + k), t4State.coefficient (0 + 4 + k), t4State.coefficient (0 + 8 + k),
        t4State.coefficient (0 + 12 + k)⟩) ∧
    (∀ r < 4, (⟨t4Second r 0, t4Second r 1, t4Second r 2, t4Second r 3⟩ : Quad) =
      butterfly ⟨t4First r 0, t4First r 1, t4First r 2, t4First r 3⟩) := by decide

theorem witness_TransformContract_faults :
    Calm State.reset (.transform 0 0) ∧ State.reset.initDone = false ∧
    Calm (ready [] []) (.transform 0 925) ∧ (ready [] []).initDone = true ∧
    ¬(0 + 15 < (ready [] []).cfg.coefSize ∧ 925 + 3 * (ready [] []).cfg.bps + 3 < (ready [] []).cfg.pixSize) := by
  decide

theorem witness_Transform2Contract :
    let s := ready [] [(0, 8), (16, 8)]
    Calm s (.transform2 480 920) ∧ s.initDone = true ∧ 480 + 31 < s.cfg.coefSize ∧
    920 + 3 * s.cfg.bps + 7 < s.cfg.pixSize ∧
    Calm State.reset (.transform2 0 0) ∧ State.reset.initDone = false ∧
    Calm s (.transform2 0 921) ∧ ¬(0 + 31 < s.cfg.coefSize ∧ 921 + 3 * s.cfg.bps + 7 < s.cfg.pixSize) := by decide

theorem witness_TransformDcContract_completes :
    let s := ready [] [(496, 8)]
    Calm s (.transformDc 496 924) ∧ s.initDone = true ∧ 496 + 15 < s.cfg.coefSize ∧
    924 + 3 * s.cfg.bps + 3 < s.cfg.pixSize ∧
    (∀ m ∈ List.range 16, 1 ≤ m → s.coefficient (496 + m) = 0) := by decide

theorem witness_TransformDcContract_faults :
    let s := ready [] (coefs 0 [80, 0, 0, 0, 0, 0, 0, 0, 0, 0, 0, 0, 0, 0, 0, -1])
    Calm State.reset (.transformDc 0 0) ∧ State.reset.initDone = false ∧
    Calm s (.transformDc 497 0) ∧ ¬(497 + 15 < s.cfg.coefSize ∧ 0 + 3 * s.cfg.bps + 3 < s.cfg.pixSize) ∧
    Calm s (.transformDc 0 0) ∧ s.initDone = true ∧ 0 + 15 < s.cfg.coefSize ∧
    0 + 3 * s.cfg.bps + 3 < s.cfg.pixSize ∧ s.coefficient (0 + 15) ≠ 0 := by decide

theorem witness_TransformAc3Contract_completes :
    let s := ready [] (coefs 0 [100, -77, 0, 0, 333])
    Calm s (.transformAc3 0 924) ∧ s.initDone = true ∧ 0 + 15 < s.cfg.coefSize ∧
    924 + 3 * s.cfg.bps + 3 < s.cfg.pixSize ∧
    (∀ m ∈ List.range 16, 2 ≤ m → m ≠ 4 → s.coefficient (0 + m) = 0) := by decide

theorem witness_TransformAc3Contract_faults :
    let s := ready [] (coefs 0 [0, 0, 1])
    Calm State.reset (.transformAc3 0 0) ∧ State.reset.initDone = false ∧
    Calm s (.transformAc3 0 925) ∧ ¬(0 + 15 < s.cfg.coefSize ∧ 925 + 3 * s.cfg.bps + 3 < s.cfg.pixSize) ∧
    Calm s (.transformAc3 0 0) ∧ s.initDone = true ∧ s.coefficient (0 + 2) ≠ 0 := by decide

theorem witness_TransformDcAgreesWithTransform :
    (ready [] [(0, 8)]).admission (.transformDc 0 0) = .none := by decide

theorem witness_TransformAc3AgreesWithTransform :
    (ready [] (coefs 0 [100, -77, 0, 0, 333])).admission (.transformAc3 0 0) = .none ∧
    (∀ r < 4, ∀ k < 4, 4 * r + k ≠ 0 → 4 * r + k ≠ 1 → 4 * r + k ≠ 4 →
      (block [100, -77, 0, 0, 333]).get r k = 0) := by decide

theorem witness_Transform2IsTwoTransforms :
    let s := ready [] [(0, 8), (16, 8)]
    s.cfg.ok ∧ s.pix.wf ∧ s.fault = .none ∧ s.admission (.transform2 480 920) = .none := by decide

theorem witness_TransformRanges :
    ∀ r < 4, ∀ k < 4, -32768 ≤ (block [-32768, 32767]).get r k ∧ (block [-32768, 32767]).get r k ≤ 32767 := by decide

theorem witness_TransformWhtContract :
    let s := ready [] [(0, 8)]
    Calm s (.transformWht 496 271) ∧ s.initDone = true ∧ 496 + 15 < s.cfg.coefSize ∧ 271 + 240 < s.cfg.coefSize ∧
    Calm State.reset (.transformWht 0 0) ∧ State.reset.initDone = false ∧
    Calm s (.transformWht 0 272) ∧ ¬(0 + 15 < s.cfg.coefSize ∧ 272 + 240 < s.cfg.coefSize) := by decide

theorem witness_WhtSumFormsAndRange :
    ∀ r < 4, ∀ c < 4, -32768 ≤ (block [-32768, 32767]).get r c ∧ (block [-32768, 32767]).get r c ≤ 32767 := by decide

theorem witness_WhtClampIsIdleInRange :
    (∑ r ∈ Finset.range 4, ∑ c ∈ Finset.range 4, |(block [131070, -131070]).get r c|) ≤ 262140 ∧
    (-262147 : Int) ≤ 262140 ∧
    (∀ r < 4, ∀ c < 4, -16383 ≤ (block [16383, -16383]).get r c ∧ (block [16383, -16383]).get r c ≤ 16383) := by
  decide

theorem witness_SimpleVfilter16Contract :
    let s := e1State
    Calm s (.simpleVfilter16 64 255) ∧ s.initDone = true ∧ 2 * s.cfg.bps ≤ 64 ∧
    976 + s.cfg.bps + 15 < s.cfg.pixSize ∧ 64 + s.cfg.bps + 15 < s.cfg.pixSize ∧
    Calm State.reset (.simpleVfilter16 64 0) ∧ State.reset.initDone = false ∧
    Calm s (.simpleVfilter16 63 255) ∧ ¬(2 * s.cfg.bps ≤ 63 ∧ 63 + s.cfg.bps + 15 < s.cfg.pixSize) := by decide

theorem witness_SimpleHfilter16Contract :
    let s := ready [(2, 255)] []
    Calm s (.simpleHfilter16 2 255) ∧ s.initDone = true ∧ 2 ≤ 2 ∧ 2 + 15 * s.cfg.bps + 1 < s.cfg.pixSize ∧
    Calm State.reset (.simpleHfilter16 2 0) ∧ State.reset.initDone = false ∧
    Calm s (.simpleHfilter16 1 255) ∧ ¬(2 ≤ 1 ∧ 1 + 15 * s.cfg.bps + 1 < s.cfg.pixSize) := by decide

theorem witness_SimpleVfilter16iContract :
    let s := ready [(128, 255)] []
    Calm s (.simpleVfilter16i 592 255) ∧ s.initDone = true ∧ 592 + 13 * s.cfg.bps + 15 < s.cfg.pixSize ∧
    Calm State.reset (.simpleVfilter16i 0 0) ∧ State.reset.initDone = false ∧
    Calm s (.simpleVfilter16i 593 255) ∧ ¬(593 + 13 * s.cfg.bps + 15 < s.cfg.pixSize) := by decide

theorem witness_SimpleHfilter16iContract :
    let s := ready [(4, 255)] []
    Calm s (.simpleHfilter16i 530 255) ∧ s.initDone = true ∧ 530 + 15 * s.cfg.bps + 13 < s.cfg.pixSize ∧
    Calm State.reset (.simpleHfilter16i 0 0) ∧ State.reset.initDone = false ∧
    Calm s (.simpleHfilter16i 531 255) ∧ ¬(531 + 15 * s.cfg.bps + 13 < s.cfg.pixSize) := by decide

theorem witness_Vfilter16iIsThreeEdgesInAnyOrder :
    let s := ready [(128, 255)] []
    s.cfg.ok ∧ s.pix.wf ∧ s.fault = .none ∧ s.admission (.simpleVfilter16i 0 255) = .none ∧
    [12, 4, 8].Perm [4, 8, 12] := by decide

theorem witness_Hfilter16iIsThreeEdgesInAnyOrder :
    let s := ready [(4, 255)] []
    s.cfg.ok ∧ s.pix.wf ∧ s.fault = .none ∧ s.admission (.simpleHfilter16i 0 255) = .none ∧
    [8, 12, 4].Perm [4, 8, 12] := by decide

theorem witness_FilterEqualsClosedForm : (-128 : Int) ≤ -128 ∧ (127 : Int) ≤ 127 := by decide

theorem witness_MaskSaturatesAt255 : (254 : Nat) ≤ 254 ∧ filterMask 0 0 255 255 254 = false := by decide

/-- F40 (`delta = 3`), F11 and F15: a small, a negative and the largest `delta`, each with the mask true. -/
theorem witness_PassingPositionChangesExactly :
    filterMask 128 128 129 128 255 = true ∧ filterDelta 128 128 129 128 = 3 ∧
    filterMask 100 104 100 96 30 = true ∧ filterDelta 100 104 100 96 = -8 ∧
    filterMask 0 0 255 255 255 = true ∧ filterDelta 0 0 255 255 = 127 := by decide

theorem witness_ThresholdZeroChangesNothing :
    e1State.pix.wf ∧ (afterStep (exec (.simpleVfilter16 64 0) e1State)).isSome = true ∧
    Instr.simpleVfilter16 64 0 ∈
      [Instr.simpleVfilter16 64 0, .simpleHfilter16 64 0, .simpleVfilter16i 64 0, .simpleHfilter16i 64 0] := by decide

theorem witness_FilterMovesP0AndQ0ByAtMostSixteen : filterMask 0 0 255 255 254 = false := by decide

/-- A sound state with two cores and work to do, from which a step answers a next state. -/
theorem witness_StepKeepsInvariant :
    (twoCores [.command 1 0x11 []]).Inv ∧ (afterStep (step (twoCores [.command 1 0x11 []]))).isSome = true := by
  refine ⟨⟨by decide, by decide, by decide, ?_, ?_, by decide⟩, by decide⟩ <;> decide

theorem witness_InvariantHoldsAtReset : Config.ok { bps := 16, pixSize := 65536, coefSize := 65536 } := by decide

/-- A run ends well only when no core has faulted (R189). -/
theorem test_goodEnd :
    State.reset.goodEnd = true ∧ ({ State.reset with fault := .race } : State).goodEnd = false ∧
    (twoCores [.command 0 1 []]).goodEnd = false := by decide

end Sys2Proof.Tests
end

section
/-! PROOFS. The multipliers of spec/00_scope.md R13. -/

namespace Sys2Proof.Machine

/-- A shifted product with `x` itself added is one shifted product: `x` is `x * 2^n` before the shift. -/
theorem add_sar_mul (x k : Int) (n : Nat) : x + sar (x * k) n = sar (x * (2 ^ n + k)) n := by
  have hpow : (2 : Int) ^ n ≠ 0 := by positivity
  rw [sar, sar, mul_add, Int.mul_add_ediv_right _ _ hpow]

/-- Settles O34: `85627 = 2^16 + 20091` makes the two forms of `MUL1` one. -/
theorem multiplierForms : Obligations.MultiplierForms := by
  unfold Obligations.MultiplierForms
  exact ⟨fun x => ⟨rfl, rfl, add_sar_mul x 20091 16⟩, by decide⟩

end Sys2Proof.Machine
end

section
/-! PROOFS. Every step keeps the invariant of the machine: one lemma per operation that changes the state, then one
per layer of the step. -/

namespace Sys2Proof.Machine

/-! ## What the cores' clause says of the three places a core can stand in -/

theorem forall_mem_cores {s : State} {p : CoreState → Prop} :
    (∀ c ∈ s.cores, p c) ↔
      (∀ c ∈ s.lower, p c) ∧ p ⟨s.initDone, s.fault⟩ ∧ ∀ c ∈ s.higher, p c := by
  simp only [State.cores, List.forall_mem_append, List.forall_mem_cons]

theorem CoreState.consistent_of_fault_none {c : CoreState} (h : c.fault = .none) : c.consistent = true := by
  simp [CoreState.consistent, h]

/-- The class the admission check gives agrees with the initialisation it was given for: only `NOT_INITIALIZED` is
given before `INIT`, and it is given nowhere else (R157). -/
theorem consistent_admission (s : State) (i : Instr) :
    CoreState.consistent ⟨s.initDone, s.admission i⟩ = true := by
  unfold State.admission
  split_ifs with hinit hdone
  · rfl
  · simp [CoreState.consistent, hdone]
  all_goals
    rw [Bool.not_eq_false] at hdone
    simp [CoreState.consistent, hdone]

/-- An admitted command stores inside both spaces. -/
theorem cells_within_of_admitted {s : State} {i : Instr} (h : s.admission i = .none) :
    (∀ c ∈ pixCells s i, c.1 < s.cfg.pixSize) ∧ (∀ c ∈ coefCells s i, c.1 < s.cfg.coefSize) := by
  rcases (admission_eq_none s i).mp h with rfl | ⟨-, hb, -, -⟩
  · simp [pixCells, coefCells]
  · exact cells_within_of_inBounds hb

/-! ## What keeps the invariant -/

/-- The invariant speaks of the configuration, the memories and the list of cores only. -/
theorem State.Inv.congr {s t : State} (h : s.Inv) (hcfg : t.cfg = s.cfg) (hpix : t.pix = s.pix)
    (hcoef : t.coef = s.coef) (hcores : t.cores = s.cores) : t.Inv := by
  obtain ⟨cfgOk, pixWf, coefWf, pixWithin, coefWithin, coresConsistent⟩ := h
  constructor <;> simpa only [hcfg, hpix, hcoef, hcores]

theorem State.Inv.setFault {s : State} (h : s.Inv) {f : FaultClass}
    (hf : CoreState.consistent ⟨s.initDone, f⟩ = true) : State.Inv { s with fault := f } :=
  have ⟨hlower, _, hhigher⟩ := forall_mem_cores.mp h.coresConsistent
  { h with coresConsistent := forall_mem_cores.mpr ⟨hlower, hf, hhigher⟩ }

theorem State.Inv.storePix {s : State} (h : s.Inv) {l : List (Nat × Sample)} (hl : ∀ c ∈ l, c.1 < s.cfg.pixSize) :
    (s.storePix l).Inv :=
  { h with
    pixWf := Mem.wf_writeAll _ _ h.pixWf
    pixWithin := Mem.within_writeAll _ _ _ h.pixWithin hl }

theorem State.Inv.storeCoef {s : State} (h : s.Inv) {l : List (Nat × Coef)} (hl : ∀ c ∈ l, c.1 < s.cfg.coefSize) :
    (s.storeCoef l).Inv :=
  { h with
    coefWf := Mem.wf_writeAll _ _ h.coefWf
    coefWithin := Mem.within_writeAll _ _ _ h.coefWithin hl }

theorem State.Inv.setInitDone {s : State} (h : s.Inv) (hf : s.fault = .none) : s.setInitDone.Inv :=
  have ⟨hlower, _, hhigher⟩ := forall_mem_cores.mp h.coresConsistent
  { h with
    coresConsistent := forall_mem_cores.mpr ⟨hlower, CoreState.consistent_of_fault_none hf, hhigher⟩ }

/-- Reset clears every latch and names cells of both spaces only (R175). -/
theorem State.Inv.applyReset {s : State} (h : s.Inv) (pix : Mem 8) (coef : Mem 16) : (s.applyReset pix coef).Inv where
  cfgOk := h.cfgOk
  pixWf := Mem.wf_ofContents _ _
  coefWf := Mem.wf_ofContents _ _
  pixWithin := Mem.within_ofContents _ _
  coefWithin := Mem.within_ofContents _ _
  coresConsistent := by
    have hreset (l : List CoreState) : ∀ c ∈ l.map fun _ => CoreState.reset, c.consistent = true :=
      List.forall_mem_map.mpr fun _ _ => rfl
    exact forall_mem_cores.mpr ⟨hreset s.lower, rfl, hreset s.higher⟩

theorem State.Inv.select {s t : State} {k : Nat} (h : s.Inv) (ht : s.select k = some t) : t.Inv := by
  obtain ⟨hcores, -, hcfg, hpix, hcoef, -, -⟩ := select_eq_some ht
  exact h.congr hcfg hpix hcoef hcores

/-! ## The layers of a step -/

/-- An admitted command stores inside both spaces, and leaves the latch clear. -/
theorem State.Inv.afterCommand {s : State} {i : Instr} (h : s.Inv) (hf : s.fault = .none)
    (ha : s.admission i = .none) : (afterCommand s i).Inv := by
  obtain ⟨hpix, hcoef⟩ := cells_within_of_admitted ha
  have hstored : ((s.storePix (pixCells s i)).storeCoef (coefCells s i)).Inv := (h.storePix hpix).storeCoef hcoef
  rcases eq_or_ne i .init with rfl | hi
  · exact hstored.setInitDone hf
  · exact hstored.congr rfl rfl rfl (by simp [State.cores, afterCommand_initDone, hi])

theorem State.Inv.runWord {s t : State} {w : Word} (h : s.Inv) (ht : s.runWord w = .next t) : t.Inv := by
  rcases runWord_cases s w with ⟨-, he⟩ | ⟨c, -, -, he, hc⟩ | ⟨i, -, hf, ha, he⟩ <;>
    obtain rfl := Host.Outcome.next.inj (he.symm.trans ht)
  · exact h
  · refine h.setFault ?_
    rcases hc with ⟨-, -, rfl⟩ | ⟨i, -, rfl⟩
    · rfl
    · exact consistent_admission s i
  · exact h.afterCommand hf ha

theorem State.Inv.perform {s t : State} {act : HostAction} (h : s.Inv) (ht : s.perform act = .next t) : t.Inv := by
  cases act <;> simp only [State.perform] at ht
  case command k w during =>
    split at ht
    · cases ht
    case h_2 u hu =>
      have hnoted : State.Inv { u with contention := during } := (h.select hu).congr rfl rfl rfl rfl
      exact hnoted.runWord ht
  case writePix a v =>
    split_ifs at ht with ha
    cases ht
    exact h.storePix (List.forall_mem_singleton.mpr ha)
  case writeCoef a v =>
    split_ifs at ht with ha
    cases ht
    exact h.storeCoef (List.forall_mem_singleton.mpr ha)
  case reset pix coef =>
    cases ht
    exact h.applyReset pix coef

/-- Settles O50: a step performs the host's next action, or with none left keeps the state. -/
theorem stepKeepsInvariant : Obligations.StepKeepsInvariant := by
  unfold Obligations.StepKeepsInvariant
  intro s t hs ht
  unfold step at ht
  split at ht
  case h_1 =>
    cases ht
    exact hs
  case h_2 act rest _ =>
    have htaken : State.Inv { s with host := rest } := hs.congr rfl rfl rfl rfl
    exact htaken.perform ht

end Sys2Proof.Machine
end

section
/-! PROOFS. What a step makes of the host's next command (spec/10_state.md R21, spec/70_reset_and_hazards.md R179): one
equation per layer of the step. -/

namespace Sys2Proof.Machine

theorem step_of_host_cons {s : State} {act : HostAction} {rest : List HostAction} (h : s.host = act :: rest) :
    step s = State.perform { s with host := rest } act := by
  rw [step, h]

theorem perform_command_of_select {s t : State} {k : Nat} (h : s.select k = some t) (w : Word)
    (during : List Access) :
    s.perform (.command k w during) = State.runWord { t with contention := during } w := by
  rw [State.perform, h]

theorem runWord_of_command {w : Word} {i : Instr} (h : decode w = .command i) (s : State) :
    s.runWord w = exec i s := by
  rw [State.runWord, h]

/-- A command word at the head of the host's list is executed on the core it is presented to (R21, R60). -/
theorem step_of_command {s t : State} {k : Nat} {w : Word} {during : List Access} {rest : List HostAction} {i : Instr}
    (hhost : s.host = .command k w during :: rest) (ht : ({ s with host := rest } : State).select k = some t)
    (hw : decode w = .command i) : step s = exec i { t with contention := during } := by
  rw [step_of_host_cons hhost, perform_command_of_select ht, runWord_of_command hw]

/-- Settles O6: a fetched word is a command to the current core, and choosing that core gives back the state. -/
theorem stepExecutesDecodedCommand : Obligations.StepExecutesDecodedCommand := by
  unfold Obligations.StepExecutesDecodedCommand
  refine ⟨fun _ _ _ _ _ _ _ => step_of_command, fun s nbits w i hw => ?_⟩
  exact step_of_command (withFetchWord_host s nbits w) (select_current s) hw

end Sys2Proof.Machine
end

section
/-! PROOFS. The state after reset (spec/10_state.md R28, spec/70_reset_and_hazards.md R175). -/

namespace Sys2Proof.Machine

/-- Settles O10: reset fixes the private state, whatever it is told of the memories (R28, R176). -/
theorem resetStateIsUninitialised : Obligations.ResetStateIsUninitialised := by
  unfold Obligations.ResetStateIsUninitialised
  exact ⟨fun _ _ _ => ⟨rfl, rfl, rfl⟩, rfl, rfl⟩

@[simp] theorem resetOf_cores (cfg : Config) (pix : Mem 8) (coef : Mem 16) :
    (State.resetOf cfg pix coef).cores = [CoreState.reset] := rfl

/-- A legal configuration meets the invariant after reset with any canonical memories inside their spaces: the latch
of the only core is clear. -/
theorem State.Inv.resetOf {cfg : Config} {pix : Mem 8} {coef : Mem 16} (hcfg : cfg.ok) (hpix : pix.wf)
    (hcoef : coef.wf) (hpixIn : pix.within cfg.pixSize) (hcoefIn : coef.within cfg.coefSize) :
    (State.resetOf cfg pix coef).Inv where
  cfgOk := hcfg
  pixWf := hpix
  coefWf := hcoef
  pixWithin := hpixIn
  coefWithin := hcoefIn
  coresConsistent := by
    rw [resetOf_cores]
    exact List.forall_mem_singleton.mpr (CoreState.consistent_of_fault_none rfl)

/-- Settles O51: memories that list no cell are canonical and inside every space, and the configuration of
`State.reset` is one that R6 allows. -/
theorem invariantHoldsAtReset : Obligations.InvariantHoldsAtReset := by
  unfold Obligations.InvariantHoldsAtReset
  have hempty (cfg : Config) (hcfg : cfg.ok) : (State.resetOf cfg [] []).Inv :=
    .resetOf hcfg Mem.wf_nil Mem.wf_nil (List.forall_mem_nil _) (List.forall_mem_nil _)
  exact ⟨hempty, hempty Config.testVectors (by decide)⟩

end Sys2Proof.Machine
end

section
/-! PROOFS. The footprints of spec/20_memory.md: what a command changes lies in its write footprint (R44), what it
writes there depends on its read footprint alone (R45, R47), the elements of a footprint have addresses of their own
(R46), and commands with disjoint footprints commute (R50). -/

namespace Sys2Proof.Machine

/-! ## What an admitted command leaves -/

theorem exec_of_admitted {s : State} {i : Instr} (hf : s.fault = .none) (ha : s.admission i = .none) :
    exec i s = .next (afterCommand s i) := by
  rw [exec_eq_carryOut, carryOut_of_admitted _ _ _ hf ha]

theorem inBounds_of_admitted {s : State} {i : Instr} (ha : s.admission i = .none) : inBounds s.cfg i = true := by
  rcases (admission_eq_none s i).mp ha with rfl | ⟨-, hb, -, -⟩
  · rfl
  · exact hb

@[simp] theorem afterCommand_pixel (s : State) (i : Instr) (x : Nat) :
    (afterCommand s i).pixel x = (s.pix.writeAll (pixCells s i)).read x := rfl

@[simp] theorem afterCommand_coefficient (s : State) (i : Instr) (x : Nat) :
    (afterCommand s i).coefficient x = ((s.coef.writeAll (coefCells s i)).read x).toInt := rfl

theorem afterCommand_pixel_other {s : State} {i : Instr} (hb : inBounds s.cfg i = true) {x : Nat}
    (hx : (x : Int) ∉ (footprint s.cfg.bps i).pixWrite) : (afterCommand s i).pixel x = s.pixel x :=
  pixel_storePix_other s _ x fun c hc hcx => hx ((mem_pixWrite_iff hb x).mpr ⟨c, hc, by rw [hcx]⟩)

theorem afterCommand_coefficient_other {s : State} {i : Instr} {x : Nat}
    (hx : (x : Int) ∉ (footprint s.cfg.bps i).coefWrite) : (afterCommand s i).coefficient x = s.coefficient x :=
  coefficient_storeCoef_other s _ x fun c hc hcx => hx ((mem_coefWrite_iff x).mpr ⟨c, hc, by rw [hcx]⟩)

/-- Settles O19: only an admitted command stores, and it stores its write footprint. -/
theorem commandWritesOnlyItsWriteFootprint : Obligations.CommandWritesOnlyItsWriteFootprint := by
  unfold Obligations.CommandWritesOnlyItsWriteFootprint
  intro s t i ht
  rcases exec_cases s i with ⟨-, he⟩ | ⟨-, -, he⟩ | ⟨-, ha, he⟩ <;>
    obtain rfl := Host.Outcome.next.inj (he.symm.trans ht)
  · exact ⟨rfl, fun _ _ => rfl, fun _ _ => rfl, fun _ => rfl⟩
  · exact ⟨rfl, fun _ _ => rfl, fun _ _ => rfl, fun _ => rfl⟩
  · exact ⟨rfl, fun _ => afterCommand_pixel_other (inBounds_of_admitted ha),
      fun _ => afterCommand_coefficient_other, fun hi => if_neg hi⟩

/-! ## Locality -/

/-- Settles O20: both states are given the same cells, and what a stored cell reads as does not depend on the memory
stored to. -/
theorem resultDependsOnlyOnReadFootprint : Obligations.ResultDependsOnlyOnReadFootprint := by
  unfold Obligations.ResultDependsOnlyOnReadFootprint
  intro s s' t t' i hpix hpix' hcoef hcoef' hcfg hf hf' ha ha' hp hq ht ht'
  obtain rfl := Host.Outcome.next.inj ((exec_of_admitted hf ha).symm.trans ht)
  obtain rfl := Host.Outcome.next.inj ((exec_of_admitted hf' ha').symm.trans ht')
  have hb := inBounds_of_admitted ha
  obtain ⟨hpixCells, hcoefCells⟩ := cells_congr hb hcfg hp hq
  constructor
  · intro x hx
    obtain ⟨c, hc, hcx⟩ := (mem_pixWrite_iff hb x).mp hx
    rw [afterCommand_pixel, afterCommand_pixel, ← hpixCells]
    exact Mem.read_writeAll_eq _ _ _ hpix hpix' x ⟨c, hc, Int.ofNat_inj.mp hcx⟩
  · intro x hx
    obtain ⟨c, hc, hcx⟩ := (mem_coefWrite_iff x).mp hx
    rw [afterCommand_coefficient, afterCommand_coefficient, ← hcoefCells]
    exact congrArg _ (Mem.read_writeAll_eq _ _ _ hcoef hcoef' x ⟨c, hc, Int.ofNat_inj.mp hcx⟩)

/-! ## Disjoint commands -/

/-- Two commands that store disjoint cells, neither changing what the other stores, leave one state in both orders. -/
theorem afterCommand_comm {s : State} {i j : Instr} (hpix : s.pix.wf) (hcoef : s.coef.wf)
    (hij : pixCells (afterCommand s i) j = pixCells s j ∧ coefCells (afterCommand s i) j = coefCells s j)
    (hji : pixCells (afterCommand s j) i = pixCells s i ∧ coefCells (afterCommand s j) i = coefCells s i)
    (hdpix : ∀ c ∈ pixCells s i, ∀ d ∈ pixCells s j, c.1 ≠ d.1)
    (hdcoef : ∀ c ∈ coefCells s i, ∀ d ∈ coefCells s j, c.1 ≠ d.1) :
    afterCommand (afterCommand s i) j = afterCommand (afterCommand s j) i := by
  rw [State.mk.injEq]
  refine ⟨rfl, ?_, rfl, rfl, rfl, ?_, ?_, rfl, rfl⟩
  · simp only [afterCommand_initDone]
    split_ifs <;> rfl
  · simp only [afterCommand_pix, hij.1, hji.1]
    exact Mem.writeAll_comm _ hpix _ _ hdpix
  · simp only [afterCommand_coef, hij.2, hji.2]
    exact Mem.writeAll_comm _ hcoef _ _ hdcoef

/-- Settles O22: each command is admitted after the other as before it, stores the same cells, and the two stores
commute. -/
theorem disjointCommandsCommute : Obligations.DisjointCommandsCommute := by
  unfold Obligations.DisjointCommandsCommute
  intro s i j hpix hcoef hf hi hj ni nj hpij hpji hcij hcji
  obtain ⟨hej, hcellsj⟩ :=
    exec_after_disjoint s i j hf hi hj ni nj (fun x hx => (hpij x hx).1) (fun x hx => (hcij x hx).1)
  obtain ⟨hei, hcellsi⟩ := exec_after_disjoint s j i hf hj hi nj ni hpji hcji
  refine ⟨_, _, _, exec_of_admitted hf hi, hej, exec_of_admitted hf hj, ?_⟩
  rw [hei, afterCommand_comm hpix hcoef hcellsj hcellsi]
  · intro c hc d hd hcd
    exact (hpij c.1 ((mem_pixWrite_iff (inBounds_of_admitted hi) _).mpr ⟨c, hc, rfl⟩)).2
      ((mem_pixWrite_iff (inBounds_of_admitted hj) _).mpr ⟨d, hd, by rw [hcd]⟩)
  · intro c hc d hd hcd
    exact (hcij c.1 ((mem_coefWrite_iff _).mpr ⟨c, hc, rfl⟩)).2 ((mem_coefWrite_iff _).mpr ⟨d, hd, by rw [hcd]⟩)

/-! ## Distinct addresses -/

/-- Every footprint lays its cells out on two strides, at most 16 steps of the first and 16 steps of the second, the
latter counted from the second cell before the base; different steps lead to different cells. -/
def StridesSeparate (su sv : Int) : Prop :=
  ∀ u u' v v' : Int, 0 ≤ u → u < 16 → 0 ≤ u' → u' < 16 → -2 ≤ v → v < 14 → -2 ≤ v' → v' < 14 →
    u * su + v * sv = u' * su + v' * sv → u = u' ∧ v = v'

theorem stridesSeparate_rows {n : Int} (hn : 16 ≤ n) : StridesSeparate n 1 := by
  intro u u' v v' _ _ _ _ hv hv₁ hv' hv₁' h
  have hdvd : n ∣ v - v' := ⟨u' - u, by linear_combination h⟩
  have hvv : v - v' = 0 := Int.eq_zero_of_abs_lt_dvd hdvd (by rw [abs_lt]; omega)
  have huu : (u - u') * n = 0 := by linear_combination h - hvv
  rcases mul_eq_zero.mp huu with hu | hu <;> omega

theorem StridesSeparate.swap {su sv : Int} (h : StridesSeparate su sv) : StridesSeparate sv su := by
  intro u u' v v' hu hu₁ hu' hu₁' hv hv₁ hv' hv₁' heq
  have := h (v + 2) (v' + 2) (u - 2) (u' - 2) (by omega) (by omega) (by omega) (by omega) (by omega) (by omega)
    (by omega) (by omega) (by linear_combination heq)
  omega

theorem run_nodup (base : Int) (n : Nat) : (run base n).Nodup :=
  List.nodup_range.map fun _ _ h => Int.ofNat_inj.mp (add_left_cancel h)

theorem grid_nodup {base su sv : Int} {n : Nat} {vs : List Int} (hs : StridesSeparate su sv) (hn : n ≤ 16)
    (hvs : vs.Nodup) (hv : ∀ v ∈ vs, -2 ≤ v ∧ v < 14) : (grid base (run 0 n) su vs sv).Nodup := by
  have inj : ∀ u ∈ run 0 n, ∀ u' ∈ run 0 n, ∀ v ∈ vs, ∀ v' ∈ vs,
      base + u * su + v * sv = base + u' * su + v' * sv → u = u' ∧ v = v' := by
    intro u hu u' hu' v hvm v' hvm' h
    obtain ⟨m, hm, rfl⟩ := mem_run.mp hu
    obtain ⟨m', hm', rfl⟩ := mem_run.mp hu'
    obtain ⟨hlo, hhi⟩ := hv v hvm
    obtain ⟨hlo', hhi'⟩ := hv v' hvm'
    exact hs _ _ _ _ (by omega) (by omega) (by omega) (by omega) hlo hhi hlo' hhi' (by linear_combination h)
  refine List.nodup_flatMap.mpr ⟨fun u hu => ?_, (run_nodup 0 n).pairwise_of_forall_ne fun u hu u' hu' hne => ?_⟩
  · exact hvs.map_on fun v hvm v' hvm' h => (inj u hu u hu v hvm v' hvm' h).2
  · refine List.disjoint_left.mpr fun x hx hx' => hne ?_
    obtain ⟨v, hvm, rfl⟩ := List.mem_map.mp hx
    obtain ⟨v', hvm', h⟩ := List.mem_map.mp hx'
    exact (inj u hu u' hu' v hvm v' hvm' h.symm).1

/-- The three inner edges are four steps apart, and an edge has at most four taps, -2 to 1: an edge and a tap of it are
determined by the steps they make together. -/
theorem innerCellsAt_nodup {b ps ss : Nat} {taps : List Int} (hs : StridesSeparate ps ss) (ht : taps.Nodup)
    (htaps : ∀ v ∈ taps, -2 ≤ v ∧ v ≤ 1) : (innerCellsAt b ps ss taps).Nodup := by
  have hedges : ∀ e ∈ innerEdges, e % 4 = 0 ∧ e ≤ 12 := by decide
  have hdistinct : innerEdges.Nodup := by decide
  refine List.nodup_flatMap.mpr ⟨fun e he => ?_, hdistinct.pairwise_of_forall_ne fun e he e' he' hne => ?_⟩
  · exact grid_nodup hs le_rfl ht fun v hv => ⟨(htaps v hv).1, by have := (htaps v hv).2; omega⟩
  · refine List.disjoint_left.mpr fun x hx hx' => hne ?_
    obtain ⟨i, hi, v, hv, rfl⟩ := mem_edgeCellsAt.mp hx
    obtain ⟨i', hi', v', hv', h⟩ := mem_edgeCellsAt.mp hx'
    obtain ⟨hmod, hle⟩ := hedges e he
    obtain ⟨hmod', hle'⟩ := hedges e' he'
    obtain ⟨hlo, hhi⟩ := htaps v hv
    obtain ⟨hlo', hhi'⟩ := htaps v' hv'
    unfold edgeAddr at h
    push_cast at h
    have hsteps : (e : Int) + v = e' + v' := by
      refine (hs i i' (e + v) (e' + v') ?_ ?_ ?_ ?_ ?_ ?_ ?_ ?_ (by linear_combination h)).2 <;> omega
    omega

/-- No two elements of any of the four address lists share an address. -/
def Footprint.Distinct (f : Footprint) : Prop :=
  f.pixRead.Nodup ∧ f.pixWrite.Nodup ∧ f.coefRead.Nodup ∧ f.coefWrite.Nodup

theorem transformFootprint_distinct {bps blocks : Nat} (hs : StridesSeparate bps 1) (hb : blocks ≤ 2) (a b : Nat) :
    (transformFootprint bps blocks a b).Distinct := by
  have hregion : (region bps b (4 * blocks)).Nodup :=
    grid_nodup hs (by omega) (run_nodup _ _) fun v hv => by
      obtain ⟨m, hm, rfl⟩ := mem_run.mp hv
      omega
  exact ⟨hregion, hregion, run_nodup _ _, List.nodup_nil⟩

theorem edgeFootprint_distinct {ps ss : Nat} (hs : StridesSeparate ps ss) (e : Nat) :
    (edgeFootprint e ps ss).Distinct :=
  ⟨grid_nodup hs le_rfl (by decide) (by decide), grid_nodup hs le_rfl (by decide) (by decide),
    List.nodup_nil, List.nodup_nil⟩

theorem innerFootprint_distinct {ps ss : Nat} (hs : StridesSeparate ps ss) (b : Nat) :
    (innerFootprint b ps ss).Distinct :=
  ⟨innerCellsAt_nodup hs (by decide) (by decide), innerCellsAt_nodup hs (by decide) (by decide),
    List.nodup_nil, List.nodup_nil⟩

/-- Settles O21: a row stride of at least 16 keeps the cells of every command's footprint apart. -/
theorem footprintCellsAreDistinct : Obligations.FootprintCellsAreDistinct := by
  unfold Obligations.FootprintCellsAreDistinct
  intro bps i hbps
  have hrows : StridesSeparate bps 1 := stridesSeparate_rows (by exact_mod_cast hbps)
  cases i with
  | init => exact ⟨List.nodup_nil, List.nodup_nil, List.nodup_nil, List.nodup_nil⟩
  | transform a b => exact transformFootprint_distinct hrows (by decide) a b
  | transform2 a b => exact transformFootprint_distinct hrows (by decide) a b
  | transformDc a b => exact transformFootprint_distinct hrows (by decide) a b
  | transformAc3 a b => exact transformFootprint_distinct hrows (by decide) a b
  | transformWht a b =>
    exact ⟨List.nodup_nil, List.nodup_nil, run_nodup _ _,
      grid_nodup (stridesSeparate_rows le_rfl) le_rfl (by decide) (by decide)⟩
  | simpleVfilter16 b t => exact edgeFootprint_distinct hrows.swap b
  | simpleHfilter16 b t => exact edgeFootprint_distinct hrows b
  | simpleVfilter16i b t => exact innerFootprint_distinct hrows.swap b
  | simpleHfilter16i b t => exact innerFootprint_distinct hrows b

end Sys2Proof.Machine
end

section
/-! PROOFS. The encoding of spec/30_encoding.md: a word is its fields, `decode` answers the command whose fields the
word holds, and the rows of the match and mask table are conditions on the fields a format fixes. -/

namespace Sys2Proof.Machine

open Sys2Proof.Laws.Layout (fields field_pack)

/-! ## A word and its fields -/

theorem field_lt (w : Word) (lo n : Nat) : field w lo n < 2 ^ n := Nat.mod_lt _ (Nat.two_pow_pos n)

theorem field_ofNat (v lo n : Nat) : field (BitVec.ofNat 64 v) lo n = v % 2 ^ 64 / 2 ^ lo % 2 ^ n := by
  rw [field, BitVec.toNat_ofNat]

/-- The fields of R61 cover the word: equal fields, equal words. -/
theorem word_eq_iff_fields (v w : Word) :
    v = w ↔
      field v 0 8 = field w 0 8 ∧ field v 8 1 = field w 8 1 ∧ field v 9 7 = field w 9 7 ∧
      field v 16 8 = field w 16 8 ∧ field v 24 8 = field w 24 8 ∧ field v 32 16 = field w 32 16 ∧
      field v 48 16 = field w 48 16 := by
  constructor
  · rintro rfl
    simp only [and_self]
  · intro h
    apply BitVec.eq_of_toNat_eq
    simp only [field] at h
    have hv := v.isLt
    have hw := w.isLt
    omega

theorem field_and (v w : Word) (lo n : Nat) : field (v &&& w) lo n = field v lo n &&& field w lo n := by
  simp only [field, BitVec.toNat_and, Nat.and_div_two_pow, Nat.and_mod_two_pow]

/-- A mask of ones keeps a field. -/
theorem field_and_ones (w : Word) {lo n m : Nat} (hm : m = 2 ^ n - 1) : field w lo n &&& m = field w lo n := by
  rw [hm, Nat.and_two_pow_sub_one_eq_mod, Nat.mod_eq_of_lt (field_lt w lo n)]

/-- A word whose reserved fields are zero is packed from its other fields. -/
theorem pack_field {w : Word} (h0 : field w 9 7 = 0) (h1 : field w 24 8 = 0) :
    pack (field w 0 8) (field w 8 1) (field w 16 8) (field w 32 16) (field w 48 16) = w := by
  rw [word_eq_iff_fields]
  obtain ⟨hop, htwo, ht, ha, hb, hrsv0, hrsv1⟩ := field_pack (field_lt w 0 8) (field_lt w 8 1) (field_lt w 16 8)
    (field_lt w 32 16) (field_lt w 48 16)
  exact ⟨hop, htwo, hrsv0.trans h0.symm, ht, hrsv1.trans h1.symm, ha, hb⟩

/-! ## A command and its fields -/

section
variable {i : Instr} {op two t a b : Nat}

theorem encode_layout (i : Instr) : Laws.Layout.Statement i := by
  cases i with
  | init => exact Laws.Layout.init
  | transform a b => exact Laws.Layout.transform a b
  | transform2 a b => exact Laws.Layout.transform2 a b
  | transformDc a b => exact Laws.Layout.transformDc a b
  | transformAc3 a b => exact Laws.Layout.transformAc3 a b
  | transformWht a b => exact Laws.Layout.transformWht a b
  | simpleVfilter16 b t => exact Laws.Layout.simpleVfilter16 b t
  | simpleHfilter16 b t => exact Laws.Layout.simpleHfilter16 b t
  | simpleVfilter16i b t => exact Laws.Layout.simpleVfilter16i b t
  | simpleHfilter16i b t => exact Laws.Layout.simpleHfilter16i b t

theorem encode_eq_pack (h : fields i = (op, two, t, a, b)) : encode i = pack op two t a b := by
  cases i <;> cases h <;> rfl

theorem wf_of_fields (h : fields i = (op, two, t, a, b)) (ht : t < 2 ^ 8) (ha : a < 2 ^ 16) (hb : b < 2 ^ 16) :
    i.wf = true := by
  cases i <;> cases h <;> simp only [Instr.wf, fits, ht, ha, hb, decide_true, Bool.and_self]

/-! ## The decoder -/

theorem commandIf_eq_command_iff {p : Prop} [Decidable p] {j : Instr} :
    commandIf p j = .command i ↔ p ∧ j = i := by
  unfold commandIf
  split_ifs with hp <;> simp [hp]

/-- The case split of R70 answers the one command with the given fields. -/
theorem decodeFields_eq_command_iff (htwo : two < 2) :
    decodeFields op two t a b = .command i ↔ (op, two, t, a, b) = fields i := by
  constructor
  · intro h
    have hone : two ≠ 0 → two = 1 := by omega
    unfold decodeFields at h
    split_ifs at h
    all_goals
      obtain ⟨hzero, rfl⟩ := commandIf_eq_command_iff.mp h
      simp [fields, *]
  · intro h
    cases i <;> cases h <;> rfl

/-- A word is the command whose fields it holds, if its reserved fields are zero. -/
theorem decode_eq_command_iff {w : Word} :
    decode w = .command i ↔
      (field w 0 8, field w 8 1, field w 16 8, field w 32 16, field w 48 16) = fields i ∧
      field w 9 7 = 0 ∧ field w 24 8 = 0 := by
  unfold decode
  split_ifs with hrsv
  · simp only [false_iff]
    tauto
  · rw [decodeFields_eq_command_iff (field_lt w 8 1)]
    tauto

end

/-- Settles O1: the word of a well-formed command holds the command's fields. -/
theorem decodeOfEncode : Obligations.DecodeOfEncode := by
  unfold Obligations.DecodeOfEncode
  exact fun i hi => decode_eq_command_iff.mpr (encode_layout i hi)

/-- Settles O2: a legal word holds the fields of its command and nothing else, and each fits its field. -/
theorem encodeOfDecode : Obligations.EncodeOfDecode := by
  unfold Obligations.EncodeOfDecode
  intro w i h
  obtain ⟨hfields, hrsv0, hrsv1⟩ := decode_eq_command_iff.mp h
  exact ⟨(encode_eq_pack hfields.symm).trans (pack_field hrsv0 hrsv1),
    wf_of_fields hfields.symm (field_lt w 16 8) (field_lt w 32 16) (field_lt w 48 16)⟩

/-! ## The match and mask table -/

/-- A masked word equals a pattern exactly when each of its fields, masked, equals the pattern's. -/
theorem and_eq_iff_fields (w m p : Word) :
    w &&& m = p ↔
      field w 0 8 &&& field m 0 8 = field p 0 8 ∧ field w 8 1 &&& field m 8 1 = field p 8 1 ∧
      field w 9 7 &&& field m 9 7 = field p 9 7 ∧ field w 16 8 &&& field m 16 8 = field p 16 8 ∧
      field w 24 8 &&& field m 24 8 = field p 24 8 ∧ field w 32 16 &&& field m 32 16 = field p 32 16 ∧
      field w 48 16 &&& field m 48 16 = field p 48 16 := by
  simp only [word_eq_iff_fields, field_and]

theorem exists_instr_iff {p : Instr → Prop} :
    (∃ i, p i) ↔
      p .init ∨ (∃ a b, p (.transform a b)) ∨ (∃ a b, p (.transform2 a b)) ∨ (∃ a b, p (.transformDc a b)) ∨
      (∃ a b, p (.transformAc3 a b)) ∨ (∃ a b, p (.transformWht a b)) ∨ (∃ b t, p (.simpleVfilter16 b t)) ∨
      (∃ b t, p (.simpleHfilter16 b t)) ∨ (∃ b t, p (.simpleVfilter16i b t)) ∨
      ∃ b t, p (.simpleHfilter16i b t) := by
  constructor
  · rintro ⟨i, hi⟩
    cases i <;> grind
  · rintro (h | ⟨_, _, h⟩ | ⟨_, _, h⟩ | ⟨_, _, h⟩ | ⟨_, _, h⟩ | ⟨_, _, h⟩ | ⟨_, _, h⟩ | ⟨_, _, h⟩ | ⟨_, _, h⟩ |
      ⟨_, _, h⟩) <;> exact ⟨_, h⟩

/-- R66: a row's mask keeps the fields its format fixes, and its pattern holds the values `decode` asks of them. -/
theorem masked_eq_iff_command {row : OpRow} (hrow : row ∈ opcodeRows) (w : Word) :
    w &&& row.mask = row.pattern ↔ ∃ i, decode w = .command i ∧ i.mnemonic = row.mnemonic := by
  rw [and_eq_iff_fields]
  simp only [opcodeRows, List.mem_cons, List.not_mem_nil, or_false] at hrow
  rcases hrow with rfl | rfl | rfl | rfl | rfl | rfl | rfl | rfl | rfl | rfl <;>
    simp [exists_instr_iff, Instr.mnemonic, decode_eq_command_iff, fields, field_ofNat, field_and_ones,
      -Nat.and_one_is_mod] <;>
    tauto

/-- Settles O3: two rows that a word lies in have the mnemonic of its one command, and no two rows share a
mnemonic. -/
theorem wordIsRowsCommandExactlyWhenMaskedMatch : Obligations.WordIsRowsCommandExactlyWhenMaskedMatch := by
  unfold Obligations.WordIsRowsCommandExactlyWhenMaskedMatch
  intro w
  refine ⟨fun row hrow => masked_eq_iff_command hrow w, fun row hrow row' hrow' h h' => ?_⟩
  obtain ⟨i, hi, hname⟩ := (masked_eq_iff_command hrow w).mp h
  obtain ⟨j, hj, hname'⟩ := (masked_eq_iff_command hrow' w).mp h'
  obtain rfl := Decoded.command.inj (hi.symm.trans hj)
  have hdistinct : ∀ r ∈ opcodeRows, ∀ r' ∈ opcodeRows, r.mnemonic = r'.mnemonic → r = r' := by decide
  exact hdistinct row hrow row' hrow' (hname.symm.trans hname')

/-! ## Illegal words -/

theorem exists_row_with_mnemonic (i : Instr) : ∃ row ∈ opcodeRows, i.mnemonic = row.mnemonic := by
  cases i <;> simp [opcodeRows, Instr.mnemonic]

/-- R67: a word in no row is no command. -/
theorem not_command_of_no_row {w : Word} (h : ∀ row ∈ opcodeRows, w &&& row.mask ≠ row.pattern) (i : Instr) :
    decode w ≠ .command i := by
  intro hi
  obtain ⟨row, hrow, hname⟩ := exists_row_with_mnemonic i
  exact h row hrow ((masked_eq_iff_command hrow w).mpr ⟨i, hi, hname⟩)

theorem runWord_of_not_command {w : Word} (h : ∀ i, decode w ≠ .command i) (s : State) :
    s.runWord w = .next (s.raise .illegalCommand) := by
  unfold State.runWord
  split
  case h_1 i hi => exact absurd hi (h i)
  case h_2 => rfl

/-- Settles O5: a word in no row is no command, and raises its fault on a clear latch. -/
theorem illegalWordFaultsWithNoOtherEffect : Obligations.IllegalWordFaultsWithNoOtherEffect := by
  unfold Obligations.IllegalWordFaultsWithNoOtherEffect
  refine ⟨fun s w hf hw => ?_, ?_⟩
  · rw [runWord_of_not_command (not_command_of_no_row hw), raise_of_clear _ _ hf]
  · have hones : ∀ row ∈ opcodeRows, row.mask ≠ row.pattern := by decide
    refine List.forall_mem_cons.mpr ⟨by decide, List.forall_mem_singleton.mpr fun row hrow => ?_⟩
    rw [BitVec.allOnes_and]
    exact hones row hrow

theorem not_command_of_illegal {w : Word} {r : Illegal} (h : decode w = .illegal r) (i : Instr) :
    decode w ≠ .command i := by
  rw [h]
  exact Decoded.noConfusion

/-- Settles O4: the opcode 0 is unknown, and each of the other three illegal words sets a field its format does not
use. -/
theorem specExampleWordsDecode : Obligations.SpecExampleWordsDecode := by
  unfold Obligations.SpecExampleWordsDecode
  refine ⟨by decide, by decide, by decide, by decide, by decide, by decide, by decide, by decide, by decide,
    by decide, ?_⟩
  simp only [List.forall_mem_cons]
  exact ⟨not_command_of_illegal (r := .unknownOpcode) (by decide),
    not_command_of_illegal (r := .unusedField) (by decide),
    not_command_of_illegal (r := .unusedField) (by decide),
    not_command_of_illegal (r := .unusedField) (by decide), List.forall_mem_nil _⟩

end Sys2Proof.Machine
end

section
/-! PROOFS. The arithmetic of the inverse transform (spec/41_inverse_transform.md R85 to R99): the elements a pass
makes, the residual of a block with few coefficients, and the ranges of the passes. -/

namespace Sys2Proof.Machine

/-! ## The elements of a pass -/

theorem Quad.get_mk (f : Nat → Int) {k : Nat} (hk : k < 4) : (⟨f 0, f 1, f 2, f 3⟩ : Quad).get k = f k := by
  interval_cases k <;> rfl

theorem Quad.get_eq_getD (q : Quad) {k : Nat} (hk : k < 4) : q.get k = [q.x0, q.x1, q.x2, q.x3].getD k 0 := by
  interval_cases k <;> rfl

theorem Block.row_eq_mk (c : Block) (r : Nat) : c.row r = ⟨c.get r 0, c.get r 1, c.get r 2, c.get r 3⟩ := rfl

theorem Block.row_transpose (c : Block) (k : Nat) :
    c.transpose.row k = ⟨c.get 0 k, c.get 1 k, c.get 2 k, c.get 3 k⟩ := by
  rcases k with _ | _ | _ | k <;> rfl

theorem Block.get_transpose (c : Block) (r k : Nat) : c.transpose.get r k = c.get k r := by
  rw [Block.get, Block.row_transpose]
  rcases k with _ | _ | _ | k <;> rfl

theorem Block.row_onRows (f : Quad → Quad) (c : Block) (r : Nat) : (c.onRows f).row r = f (c.row r) := by
  rcases r with _ | _ | _ | r <;> rfl

theorem Block.get_onRows (f : Quad → Quad) (c : Block) (r k : Nat) : (c.onRows f).get r k = (f (c.row r)).get k := by
  rw [Block.get, Block.row_onRows]

theorem Block.get_onColumns (f : Quad → Quad) (c : Block) (r k : Nat) :
    (c.onColumns f).get r k = (f ⟨c.get 0 k, c.get 1 k, c.get 2 k, c.get 3 k⟩).get r := by
  rw [Block.onColumns, Block.get_transpose, Block.get_onRows, Block.row_transpose]

theorem Block.get_onCells (f : Int → Int) (c : Block) (r k : Nat) : (c.onCells f).get r k = f (c.get r k) := by
  rw [Block.onCells, Block.get_onRows]
  rcases k with _ | _ | _ | k <;> rfl

theorem Block.ext_of_get {c d : Block} (h : ∀ r < 4, ∀ k < 4, c.get r k = d.get r k) : c = d := by
  have hrow : ∀ r < 4, c.row r = d.row r := fun r hr => by
    rw [c.row_eq_mk, d.row_eq_mk, h r hr 0 (by decide), h r hr 1 (by decide), h r hr 2 (by decide),
      h r hr 3 (by decide)]
  exact (Block.mk.injEq ..).mpr
    ⟨hrow 0 (by decide), hrow 1 (by decide), hrow 2 (by decide), hrow 3 (by decide)⟩

/-- The residual of a block for which R87 and R88 give the arrays `t` and `o`. -/
theorem get_residual_of_passes {c : Block} {t o : Nat → Nat → Int}
    (ht : ∀ k < 4, (⟨t 0 k, t 1 k, t 2 k, t 3 k⟩ : Quad) = butterfly ⟨c.get 0 k, c.get 1 k, c.get 2 k, c.get 3 k⟩)
    (ho : ∀ r < 4, (⟨o r 0, o r 1, o r 2, o r 3⟩ : Quad) = butterfly ⟨t r 0, t r 1, t r 2, t r 3⟩)
    {r k : Nat} (hr : r < 4) (hk : k < 4) : (residual c).get r k = roundResidual (o r k) := by
  have hfirst : ∀ j < 4, (firstPass c).get r j = t r j := fun j hj => by
    rw [firstPass, Block.get_onColumns, ← ht j hj, Quad.get_mk (t · j) hr]
  have hrow : (firstPass c).row r = ⟨t r 0, t r 1, t r 2, t r 3⟩ := by
    rw [Block.row_eq_mk, hfirst 0 (by decide), hfirst 1 (by decide), hfirst 2 (by decide), hfirst 3 (by decide)]
  rw [residual, Block.get_onCells, secondPass, Block.get_onRows, hrow, ← ho r hr, Quad.get_mk (o r) hk]

/-! ## The butterfly -/

@[simp] theorem mul1_zero : mul1 0 = 0 := rfl

@[simp] theorem mul2_zero : mul2 0 = 0 := rfl

/-- With its last two inputs zero the butterfly adds one pattern to its first input. -/
theorem butterfly_first_two (x y : Int) :
    butterfly ⟨x, y, 0, 0⟩ = ⟨x + mul1 y, x + mul2 y, x - mul2 y, x - mul1 y⟩ := by
  simp [butterfly]

/-- The first input enters each output once and passes through no multiplier (R91). -/
theorem butterfly_add_first (q : Quad) (v : Int) :
    butterfly { q with x0 := q.x0 + v } =
      ⟨(butterfly q).x0 + v, (butterfly q).x1 + v, (butterfly q).x2 + v, (butterfly q).x3 + v⟩ := by
  simp only [butterfly, Quad.mk.injEq]
  refine ⟨?_, ?_, ?_, ?_⟩ <;> ring

/-- Settles O33: what is added to the first element of a row is added to all four of its outputs. -/
theorem biasBeforeSecondPassIsBiasAfter : Obligations.BiasBeforeSecondPassIsBiasAfter := by
  unfold Obligations.BiasBeforeSecondPassIsBiasAfter
  intro t
  simp only [secondPass, Block.onCells, Block.onRows, butterfly_add_first]

/-- Settles O35: both orders, computed on the rule's block; they differ because `MUL1` and `MUL2` floor. -/
theorem passOrderIsObservable : Obligations.PassOrderIsObservable := by
  unfold Obligations.PassOrderIsObservable
  exact ⟨by decide, by decide, by decide, by decide⟩

/-! ## Blocks with few coefficients -/

/-- The block with coefficients 0, 1 and 4 as given and the others zero. -/
def ac3Block (dc c1v c4v : Int) : Block := ⟨⟨dc, c1v, 0, 0⟩, ⟨c4v, 0, 0, 0⟩, ⟨0, 0, 0, 0⟩, ⟨0, 0, 0, 0⟩⟩

theorem get_ac3Block (dc c1v c4v : Int) {r k : Nat} (hr : r < 4) (hk : k < 4) :
    (ac3Block dc c1v c4v).get r k =
      if 4 * r + k = 0 then dc else if 4 * r + k = 1 then c1v else if 4 * r + k = 4 then c4v else 0 := by
  interval_cases r <;> interval_cases k <;> rfl

theorem eq_ac3Block {c : Block}
    (h : ∀ r < 4, ∀ k < 4, 4 * r + k ≠ 0 → 4 * r + k ≠ 1 → 4 * r + k ≠ 4 → c.get r k = 0) :
    c = ac3Block (c.get 0 0) (c.get 0 1) (c.get 1 0) := by
  refine Block.ext_of_get fun r hr k hk => ?_
  rw [get_ac3Block _ _ _ hr hk]
  split_ifs with h0 h1 h4
  · obtain ⟨rfl, rfl⟩ : r = 0 ∧ k = 0 := by omega
    rfl
  · obtain ⟨rfl, rfl⟩ : r = 0 ∧ k = 1 := by omega
    rfl
  · obtain ⟨rfl, rfl⟩ : r = 1 ∧ k = 0 := by omega
    rfl
  · exact h r hr k hk h0 h1 h4

/-- The pattern `(MUL1, MUL2, -MUL2, -MUL1)` that a lone second input of the butterfly adds: `CD` and `ROW` of R96. -/
def ac3Pattern (v : Int) : Quad := ⟨mul1 v, mul2 v, -mul2 v, -mul1 v⟩

theorem get_ac3Residual (dc c1v c4v : Int) {r k : Nat} (hr : r < 4) (hk : k < 4) :
    (ac3Residual dc c1v c4v).get r k = sar (dc + 4 + (ac3Pattern c1v).get k + (ac3Pattern c4v).get r) 3 :=
  Block.get_ofFn _ r k hr hk

theorem get_butterfly_first_two (x y : Int) (k : Nat) :
    (butterfly ⟨x, y, 0, 0⟩).get k = x + (ac3Pattern y).get k := by
  rw [butterfly_first_two]
  rcases k with _ | _ | _ | k <;> rfl

theorem get_butterfly_first_only (x : Int) {k : Nat} (hk : k < 4) : (butterfly ⟨x, 0, 0, 0⟩).get k = x := by
  have hconst : butterfly ⟨x, 0, 0, 0⟩ = ⟨x, x, x, x⟩ := by simp [butterfly_first_two]
  rw [hconst, Quad.get_mk (fun _ => x) hk]

/-- The first pass of such a block (R97): column 0 spreads coefficient 4, column 1 repeats coefficient 1. -/
theorem row_firstPass_ac3Block (dc c1v c4v : Int) {r : Nat} (hr : r < 4) :
    (firstPass (ac3Block dc c1v c4v)).row r = ⟨dc + (ac3Pattern c4v).get r, c1v, 0, 0⟩ := by
  have hcolumn0 : (firstPass (ac3Block dc c1v c4v)).get r 0 = dc + (ac3Pattern c4v).get r :=
    (Block.get_onColumns ..).trans (get_butterfly_first_two dc c4v r)
  have hcolumn1 : (firstPass (ac3Block dc c1v c4v)).get r 1 = c1v :=
    (Block.get_onColumns ..).trans (get_butterfly_first_only c1v hr)
  have hcolumn2 : (firstPass (ac3Block dc c1v c4v)).get r 2 = 0 :=
    (Block.get_onColumns ..).trans (get_butterfly_first_only 0 hr)
  have hcolumn3 : (firstPass (ac3Block dc c1v c4v)).get r 3 = 0 :=
    (Block.get_onColumns ..).trans (get_butterfly_first_only 0 hr)
  rw [Block.row_eq_mk, hcolumn0, hcolumn1, hcolumn2, hcolumn3]

/-- The sparse path computes the residual (R97). -/
theorem residual_ac3Block (dc c1v c4v : Int) : residual (ac3Block dc c1v c4v) = ac3Residual dc c1v c4v := by
  refine Block.ext_of_get fun r hr k hk => ?_
  rw [residual, Block.get_onCells, secondPass, Block.get_onRows, row_firstPass_ac3Block _ _ _ hr,
    get_butterfly_first_two, get_ac3Residual _ _ _ hr hk, roundResidual]
  exact congrArg (sar · 3) (by ring)

/-- Without coefficients 1 and 4 the sparse path is the DC-only path (R96). -/
theorem ac3Residual_zero_zero (dc : Int) : ac3Residual dc 0 0 = dcResidual dc := by
  refine Block.ext_of_get fun r hr k hk => ?_
  have hpattern : ∀ j < 4, (ac3Pattern 0).get j = 0 := by decide
  rw [get_ac3Residual _ _ _ hr hk, hpattern k hk, hpattern r hr, add_zero, add_zero, dcResidual,
    Block.get_ofFn _ _ _ hr hk, roundResidual]

/-- Transposing such a block swaps coefficients 1 and 4, and so does transposing the sparse path's residual. -/
theorem transpose_ac3Residual (dc c1v c4v : Int) : (ac3Residual dc c4v c1v).transpose = ac3Residual dc c1v c4v := by
  refine Block.ext_of_get fun r hr k hk => ?_
  rw [Block.get_transpose, get_ac3Residual _ _ _ hk hr, get_ac3Residual _ _ _ hr hk, add_right_comm]

/-- Rows first is columns first on the transposed block, transposed back. -/
theorem rowsFirst_eq_transpose (c : Block) :
    ((c.onRows butterfly).onColumns butterfly).onCells roundResidual = (residual c.transpose).transpose := rfl

/-- For such a block the order of the passes does not matter (R97). -/
theorem rowsFirst_ac3Block (dc c1v c4v : Int) :
    (((ac3Block dc c1v c4v).onRows butterfly).onColumns butterfly).onCells roundResidual =
      residual (ac3Block dc c1v c4v) :=
  calc (((ac3Block dc c1v c4v).onRows butterfly).onColumns butterfly).onCells roundResidual
      = (residual (ac3Block dc c4v c1v)).transpose := rowsFirst_eq_transpose _
    _ = (ac3Residual dc c4v c1v).transpose := by rw [residual_ac3Block]
    _ = residual (ac3Block dc c1v c4v) := by rw [transpose_ac3Residual, residual_ac3Block]

/-! ## Ranges -/

theorem abs_sar_mul_le {x k bound m : Int} {n : Nat} (hk : 0 ≤ k) (hx : |x| ≤ bound) (hm : bound * k ≤ m * 2 ^ n) :
    |sar (x * k) n| ≤ m := by
  have hpow : (0 : Int) < 2 ^ n := by positivity
  obtain ⟨hlo, hhi⟩ := abs_le.mp hx
  have hlo' : -bound * k ≤ x * k := mul_le_mul_of_nonneg_right hlo hk
  have hhi' : x * k ≤ bound * k := mul_le_mul_of_nonneg_right hhi hk
  rw [sar, abs_le]
  constructor
  · rw [Int.le_ediv_iff_mul_le hpow]
    linarith
  · exact Int.ediv_le_of_le_mul hpow (hhi'.trans hm)

/-- Each output of the butterfly is two inputs and one value of each multiplier, added or subtracted. -/
theorem abs_get_butterfly_le {q : Quad} {bound m1 m2 : Int} (hq : ∀ j < 4, |q.get j| ≤ bound)
    (h1 : bound * 85627 ≤ m1 * 2 ^ 16) (h2 : bound * 35468 ≤ m2 * 2 ^ 16) {k : Nat} (hk : k < 4) :
    |(butterfly q).get k| ≤ 2 * bound + m1 + m2 := by
  have hmul1 : ∀ x : Int, |x| ≤ bound → |mul1 x| ≤ m1 := fun x hx => by
    rw [mul1, add_sar_mul]
    exact abs_sar_mul_le (by decide) hx h1
  have hmul2 : ∀ x : Int, |x| ≤ bound → |mul2 x| ≤ m2 := fun x hx => abs_sar_mul_le (by decide) hx h2
  have hx0 := abs_le.mp (hq 0 (by decide))
  have hx2 := abs_le.mp (hq 2 (by decide))
  have ha1 := abs_le.mp (hmul1 _ (hq 1 (by decide)))
  have ha3 := abs_le.mp (hmul1 _ (hq 3 (by decide)))
  have hb1 := abs_le.mp (hmul2 _ (hq 1 (by decide)))
  have hb3 := abs_le.mp (hmul2 _ (hq 3 (by decide)))
  simp only [Quad.get] at hx0 hx2 ha1 ha3 hb1 hb3
  rw [abs_le]
  interval_cases k <;> simp only [butterfly, Quad.get] <;> omega

theorem abs_get_firstPass_le {c : Block} (hc : ∀ r < 4, ∀ k < 4, -32768 ≤ c.get r k ∧ c.get r k ≤ 32767)
    {r k : Nat} (hr : r < 4) (hk : k < 4) : |(firstPass c).get r k| ≤ 126084 := by
  rw [firstPass, Block.get_onColumns]
  refine (abs_get_butterfly_le (bound := 32768) (m1 := 42814) (m2 := 17734) (fun j hj => ?_) (by decide) (by decide)
    hr).trans (by decide)
  obtain ⟨hlo, hhi⟩ := hc j hj k hk
  rw [Quad.get_mk (c.get · k) hj, abs_le]
  omega

theorem abs_get_secondPass_le {t : Block} (ht : ∀ r < 4, ∀ k < 4, |t.get r k| ≤ 126084)
    {r k : Nat} (hr : r < 4) (hk : k < 4) : |(secondPass t).get r k| ≤ 485142 := by
  rw [secondPass, Block.get_onRows]
  exact (abs_get_butterfly_le (m1 := 164737) (m2 := 68237) (ht r hr) (by decide) (by decide) hk).trans (by decide)

theorem abs_roundResidual_le {o : Int} (ho : |o| ≤ 485142) : |roundResidual o| ≤ 60643 := by
  rw [abs_le] at ho ⊢
  unfold roundResidual sar
  omega

/-- Settles O32: each pass bounds its outputs by the bound of its inputs, and the extremes are computed. -/
theorem transformRanges : Obligations.TransformRanges := by
  unfold Obligations.TransformRanges
  refine ⟨fun c hc r hr k hk => ?_, by decide, by decide, by decide⟩
  have hfirst : ∀ r < 4, ∀ k < 4, |(firstPass c).get r k| ≤ 126084 := fun _ hr _ hk => abs_get_firstPass_le hc hr hk
  have hsecond := abs_get_secondPass_le hfirst hr hk
  have hresidual : |(residual c).get r k| ≤ 60643 := by
    rw [residual, Block.get_onCells]
    exact abs_roundResidual_le hsecond
  have hproduct {k' m : Int} (h0 : 0 ≤ k') (hm : 126084 * k' ≤ m) : |(firstPass c).get r k * k'| ≤ m := by
    rw [abs_mul, abs_of_nonneg h0]
    exact (mul_le_mul_of_nonneg_right (hfirst r hr k hk) h0).trans hm
  exact ⟨hfirst r hr k hk, hsecond, hresidual, hproduct (by decide) (by decide), hproduct (by decide) (by decide),
    hproduct (by decide) (by decide)⟩

end Sys2Proof.Machine
end

section
/-! PROOFS. What the transform commands do (spec/41_inverse_transform.md R92 to R97): one lemma for the outcomes that
all four share, one for a stored 4x4 region, and from them the contracts and the agreement of the one-block commands. -/

namespace Sys2Proof.Machine

/-! ## Outcomes -/

section
variable {s : State} {i : Instr} {blocks a b : Nat}

/-- A command with a transform's footprint is in bounds when the last coefficient and the last pixel are. -/
theorem inBounds_transform_iff (hfoot : footprint s.cfg.bps i = transformFootprint s.cfg.bps blocks a b)
    (hblocks : 0 < blocks) :
    inBounds s.cfg i = true ↔
      a + (16 * blocks - 1) < s.cfg.coefSize ∧ b + 3 * s.cfg.bps + (4 * blocks - 1) < s.cfg.pixSize := by
  simp only [inBounds, hfoot, transformFootprint, Bool.and_eq_true, inSpace_nil, and_true, and_self, and_assoc,
    inSpace_run_iff (show 0 < 16 * blocks by omega), inSpace_region_iff (show 0 < 4 * blocks by omega)]

/-- The outcomes of a transform on a clear latch without interference: not initialised, out of bounds, not sparse as
required, admitted. -/
theorem exec_transform_outcome (hfoot : footprint s.cfg.bps i = transformFootprint s.cfg.bps blocks a b)
    (hblocks : 0 < blocks) (hinit : i ≠ .init) (hcoef : coefCells s i = []) (hf : s.fault = .none)
    (hr : s.raced i = false) :
    (s.initDone = false → exec i s = .next { s with fault := .notInitialized }) ∧
    (s.initDone = true →
      ¬(a + (16 * blocks - 1) < s.cfg.coefSize ∧ b + 3 * s.cfg.bps + (4 * blocks - 1) < s.cfg.pixSize) →
      exec i s = .next { s with fault := .bounds }) ∧
    (s.initDone = true → a + (16 * blocks - 1) < s.cfg.coefSize →
      b + 3 * s.cfg.bps + (4 * blocks - 1) < s.cfg.pixSize → s.sparse i = false →
      exec i s = .next { s with fault := .sparsity }) ∧
    (s.initDone = true → a + (16 * blocks - 1) < s.cfg.coefSize →
      b + 3 * s.cfg.bps + (4 * blocks - 1) < s.cfg.pixSize → s.sparse i = true →
      exec i s = .next (s.storePix (pixCells s i))) := by
  have hb := inBounds_transform_iff hfoot hblocks
  rw [← afterCommand_eq_storePix s i hinit hcoef]
  obtain ⟨huninit, hbounds, hsparse, hadmitted⟩ := exec_outcome s i hinit hf hr
  exact ⟨huninit, fun hi hn => hbounds hi (Bool.eq_false_iff.mpr (mt hb.mp hn)),
    fun hi ha hp => hsparse hi (hb.mpr ⟨ha, hp⟩), fun hi ha hp => hadmitted hi (hb.mpr ⟨ha, hp⟩)⟩

end

theorem sparse_transformDc_iff {s : State} {a b : Nat} :
    s.sparse (.transformDc a b) = true ↔ ∀ m, 1 ≤ m → m ≤ 15 → s.coefficient (a + m) = 0 := by
  have hindices : ∀ m, m ∈ dcZeroIndices ↔ 1 ≤ m ∧ m ≤ 15 := by
    intro m
    simp only [dcZeroIndices, List.mem_cons, List.not_mem_nil, or_false]
    omega
  simp only [State.sparse, State.zeroAt, List.all_eq_true, decide_eq_true_eq, hindices, and_imp]

theorem sparse_transformAc3_iff {s : State} {a b : Nat} :
    s.sparse (.transformAc3 a b) = true ↔ ∀ m, 2 ≤ m → m ≤ 15 → m ≠ 4 → s.coefficient (a + m) = 0 := by
  have hindices : ∀ m, m ∈ ac3ZeroIndices ↔ 2 ≤ m ∧ m ≤ 15 ∧ m ≠ 4 := by
    intro m
    simp only [ac3ZeroIndices, List.mem_cons, List.not_mem_nil, or_false]
    omega
  simp only [State.sparse, State.zeroAt, List.all_eq_true, decide_eq_true_eq, hindices, and_imp]

/-! ## Contracts -/

/-- A pixel of a stored region is the saturated sum of R90; the samples added to are `s`'s, the memory stored to may be
another. -/
theorem toNat_pixel_store_block {s s' : State} {b : Nat} {res : Block} (hm : s'.pix.wf) (hs : 4 ≤ s.cfg.bps)
    {r k : Nat} (hr : r < 4) (hk : k < 4) :
    (((s'.storePix (blockCells s b res)).pixel (b + r * s.cfg.bps + k)).toNat : Int) =
      satU8 ((s.pixel (b + r * s.cfg.bps + k)).toNat + res.get r k) := by
  rw [pixel_store_block s s' b res hm hs hr hk, toNat_accumulate]

/-- What a command does that stores one block: the 16 pixels, and the frame (R90, R92). -/
theorem exec_block_spec {s : State} {i : Instr} {b : Nat} {res : Block} (hcfg : s.cfg.ok) (hpix : s.pix.wf)
    (hexec : exec i s = .next (s.storePix (blockCells s b res))) :
    ∃ z, exec i s = .next z ∧ z = { s with pix := z.pix } ∧
      (∀ r < 4, ∀ k < 4, ((z.pixel (b + r * s.cfg.bps + k)).toNat : Int) =
        satU8 ((s.pixel (b + r * s.cfg.bps + k)).toNat + res.get r k)) ∧
      (∀ x, (∀ r < 4, ∀ k < 4, x ≠ b + r * s.cfg.bps + k) → z.pixel x = s.pixel x) := by
  obtain ⟨hbps, -, -⟩ := hcfg
  exact ⟨_, hexec, storePix_eq .., fun r hr k hk => toNat_pixel_store_block hpix (by omega) hr hk,
    fun x hx => pixel_store_block_other s s b x res hx⟩

theorem column_coefBlock (s : State) (a : Nat) {k : Nat} (hk : k < 4) :
    (⟨(s.coefBlock a).get 0 k, (s.coefBlock a).get 1 k, (s.coefBlock a).get 2 k, (s.coefBlock a).get 3 k⟩ : Quad) =
      ⟨s.coefficient (a + k), s.coefficient (a + 4 + k), s.coefficient (a + 8 + k), s.coefficient (a + 12 + k)⟩ := by
  interval_cases k <;> rfl

/-- Settles O25: the stored residual is the one the two passes give. -/
theorem transformContract : Obligations.TransformContract := by
  unfold Obligations.TransformContract
  intro s a b hcfg hpix hf hrace
  obtain ⟨huninit, hbounds, -, hadmitted⟩ :=
    exec_transform_outcome (blocks := 1) (i := .transform a b) rfl one_pos Instr.noConfusion rfl hf hrace
  refine ⟨fun hi ha hp => ?_, huninit, hbounds⟩
  obtain ⟨z, hz, hfields, hblock, hother⟩ := exec_block_spec hcfg hpix (hadmitted hi ha hp rfl)
  refine ⟨z, hz, hfields, fun t o ht ho r hr k hk => ?_, hother⟩
  rw [hblock r hr k hk, get_residual_of_passes (fun j hj => ?_) ho hr hk, roundResidual]
  rw [ht j hj, column_coefBlock s a hj]

/-- Settles O27: the DC-only residual is the same for all 16 pixels. -/
theorem transformDcContract : Obligations.TransformDcContract := by
  unfold Obligations.TransformDcContract
  intro s a b hcfg hpix hf hrace
  obtain ⟨huninit, hbounds, hsparsity, hadmitted⟩ :=
    exec_transform_outcome (blocks := 1) (i := .transformDc a b) rfl one_pos Instr.noConfusion rfl hf hrace
  refine ⟨fun hi ha hp hzero => ?_, huninit, hbounds, fun hi ha hp hne => hsparsity hi ha hp ?_⟩
  · obtain ⟨z, hz, hfields, hblock, hother⟩ :=
      exec_block_spec hcfg hpix (hadmitted hi ha hp (sparse_transformDc_iff.mpr hzero))
    refine ⟨z, hz, hfields, fun r hr k hk => ?_, hother⟩
    rw [hblock r hr k hk, dcResidual, Block.get_ofFn _ _ _ hr hk, roundResidual]
  · obtain ⟨m, hlo, hhi, hm⟩ := hne
    exact Bool.eq_false_iff.mpr fun hs => hm (sparse_transformDc_iff.mp hs m hlo hhi)

/-- Settles O28: `CD` and `ROW` are the patterns of coefficients 1 and 4. -/
theorem transformAc3Contract : Obligations.TransformAc3Contract := by
  unfold Obligations.TransformAc3Contract
  intro s a b hcfg hpix hf hrace
  obtain ⟨huninit, hbounds, hsparsity, hadmitted⟩ :=
    exec_transform_outcome (blocks := 1) (i := .transformAc3 a b) rfl one_pos Instr.noConfusion rfl hf hrace
  refine ⟨fun hi ha hp hzero => ?_, huninit, hbounds, fun hi ha hp hne => hsparsity hi ha hp ?_⟩
  · obtain ⟨z, hz, hfields, hblock, hother⟩ :=
      exec_block_spec hcfg hpix (hadmitted hi ha hp (sparse_transformAc3_iff.mpr hzero))
    refine ⟨z, hz, hfields, fun r hr k hk => ?_, hother⟩
    rw [hblock r hr k hk, get_ac3Residual _ _ _ hr hk, Quad.get_eq_getD _ hr, Quad.get_eq_getD _ hk]
    rfl
  · obtain ⟨m, hlo, hhi, h4, hm⟩ := hne
    exact Bool.eq_false_iff.mpr fun hs => hm (sparse_transformAc3_iff.mp hs m hlo hhi h4)

/-! ## Agreement with `TRANSFORM` -/

/-- A command with the footprint of a `TRANSFORM` does what that does wherever it is admitted, if it stores the same
cells. -/
theorem exec_eq_transform {s : State} {i : Instr} {a b : Nat}
    (hfoot : footprint s.cfg.bps i = footprint s.cfg.bps (.transform a b)) (hinit : i ≠ .init)
    (hadm : s.admission i = .none) (hpix : pixCells s i = pixCells s (.transform a b)) (hcoef : coefCells s i = []) :
    exec i s = exec (.transform a b) s := by
  obtain ⟨hi, hb, -, hr⟩ := ((admission_eq_none s i).mp hadm).resolve_left hinit
  have hadm' : s.admission (.transform a b) = .none := by
    refine (admission_eq_none s _).mpr (.inr ⟨hi, ?_, rfl, ?_⟩)
    · rwa [inBounds, hfoot] at hb
    · rwa [State.raced, hfoot] at hr
  have hafter : afterCommand s i = afterCommand s (.transform a b) := by
    rw [afterCommand_eq_storePix s i hinit hcoef, hpix,
      afterCommand_eq_storePix s (.transform a b) Instr.noConfusion rfl]
  rw [exec_eq_carryOut, exec_eq_carryOut, hafter, State.carryOut, State.carryOut, hadm, hadm']

theorem coefBlock_eq_ac3Block {s : State} {a : Nat} (h : ∀ m, 2 ≤ m → m ≤ 15 → m ≠ 4 → s.coefficient (a + m) = 0) :
    s.coefBlock a = ac3Block (s.coefficient a) (s.coefficient (a + 1)) (s.coefficient (a + 4)) :=
  eq_ac3Block fun r hr k hk h0 h1 h4 => by
    rw [get_coefBlock s a hr hk]
    exact h _ (by omega) (by omega) h4

/-- Settles O30: the sparse path computes the residual of a block with three coefficients, and the passes of such a
block may be exchanged. -/
theorem transformAc3AgreesWithTransform : Obligations.TransformAc3AgreesWithTransform := by
  unfold Obligations.TransformAc3AgreesWithTransform
  refine ⟨fun s a b hadm => ?_, fun c hc => ?_⟩
  · obtain ⟨-, -, hsparse, -⟩ := ((admission_eq_none s _).mp hadm).resolve_left Instr.noConfusion
    refine exec_eq_transform rfl Instr.noConfusion hadm ?_ rfl
    rw [pixCells, pixCells, coefBlock_eq_ac3Block (sparse_transformAc3_iff.mp hsparse), residual_ac3Block]
  · rw [eq_ac3Block hc, rowsFirst_ac3Block]

/-- Settles O29: the DC-only path computes the residual of a block with one coefficient. -/
theorem transformDcAgreesWithTransform : Obligations.TransformDcAgreesWithTransform := by
  unfold Obligations.TransformDcAgreesWithTransform
  intro s a b hadm
  obtain ⟨-, -, hsparse, -⟩ := ((admission_eq_none s _).mp hadm).resolve_left Instr.noConfusion
  have hzero := sparse_transformDc_iff.mp hsparse
  have hblock := coefBlock_eq_ac3Block fun m hlo hhi _ => hzero m (by omega) hhi
  rw [hzero 1 (by decide) (by decide), hzero 4 (by decide) (by decide)] at hblock
  refine exec_eq_transform rfl Instr.noConfusion hadm ?_ rfl
  rw [pixCells, pixCells, hblock, residual_ac3Block, ac3Residual_zero_zero]

end Sys2Proof.Machine
end

section
/-! PROOFS. `TRANSFORM2` (spec/41_inverse_transform.md R93): its two blocks have pixels of their own, and each is a
`TRANSFORM` that is admitted with it. -/

namespace Sys2Proof.Machine

/-! ## The pixels of the two blocks -/

/-- Two side-by-side regions share no pixel (R46). -/
theorem blockAddr_ne_shift {bps : Nat} (hbps : 8 ≤ bps) (b : Nat) :
    ∀ r < 4, ∀ k < 4, ∀ r' < 4, ∀ k' < 4, blockAddr bps b r k ≠ blockAddr bps (b + 4) r' k' := by
  intro r _ k hk r' _ k' hk' h
  unfold blockAddr at h
  obtain ⟨-, hcol⟩ := rowColumn_inj (r := r) (r' := r') (k := k) (k' := 4 + k') hbps (by omega) (by omega) (by omega)
  omega

/-- Settles O26: the second block's store leaves the first block's pixels, and each block's pixels are those of its own
residual. -/
theorem transform2Contract : Obligations.Transform2Contract := by
  unfold Obligations.Transform2Contract
  intro s a b hcfg hpix hf hrace
  obtain ⟨hbps, -, -⟩ := hcfg
  obtain ⟨huninit, hbounds, -, hadmitted⟩ :=
    exec_transform_outcome (blocks := 2) (i := .transform2 a b) rfl two_pos Instr.noConfusion rfl hf hrace
  refine ⟨fun hi ha hp => ⟨_, hadmitted hi ha hp rfl, storePix_eq .., fun n hn r hr k hk => ?_, fun x hx => ?_⟩,
    huninit, hbounds⟩
  all_goals rw [pixCells, storePix_append]
  · rcases (by omega : n = 0 ∨ n = 1) with rfl | rfl
    · simp only [Nat.mul_zero, Nat.add_zero]
      rw [pixel_store_block_other s _ (b + 4) (b + r * s.cfg.bps + k) _
        (blockAddr_ne_shift (by omega) b r hr k hk)]
      exact toNat_pixel_store_block hpix (by omega) hr hk
    · exact toNat_pixel_store_block (Mem.wf_writeAll _ _ hpix) (by omega) hr hk
  · rw [pixel_store_block_other s _ (b + 4) x _ fun r hr k hk => ?_,
      pixel_store_block_other s s b x _ fun r hr k hk => hx r hr k (by omega)]
    have := hx r hr (4 + k) (by omega)
    omega

/-! ## The two commands -/

/-- Every cell of one footprint is a cell of the other. -/
def Footprint.Within (f g : Footprint) : Prop :=
  f.coefRead ⊆ g.coefRead ∧ f.coefWrite ⊆ g.coefWrite ∧ f.pixRead ⊆ g.pixRead ∧ f.pixWrite ⊆ g.pixWrite

/-- What interferes with a footprint interferes with a larger one. -/
theorem Footprint.Within.interferes {f g : Footprint} (h : f.Within g) {x : Access} (hx : f.interferes x = true) :
    g.interferes x = true := by
  obtain ⟨hcr, hcw, hpr, hpw⟩ := h
  obtain ⟨space, addr, kind⟩ := x
  cases space <;> cases kind <;>
    simp only [Footprint.interferes, decide_eq_true_eq, List.mem_append] at hx ⊢
  · exact hpw hx
  · exact hx.imp (@hpr _) (@hpw _)
  · exact hcw hx
  · exact hx.imp (@hcr _) (@hcw _)

/-- A command is admitted where one with a larger footprint is, unless it is checked for sparsity itself. -/
theorem admission_of_within {s : State} {i j : Instr} (hi : i ≠ .init)
    (h : (footprint s.cfg.bps j).Within (footprint s.cfg.bps i)) (hsparse : s.sparse j = true)
    (hadm : s.admission i = .none) : s.admission j = .none := by
  obtain ⟨hinit, hb, -, hr⟩ := ((admission_eq_none s i).mp hadm).resolve_left hi
  refine (admission_eq_none s j).mpr (.inr ⟨hinit, ?_, hsparse, ?_⟩)
  · obtain ⟨hcr, hcw, hpr, hpw⟩ := h
    obtain ⟨bcr, bcw, bpr, bpw⟩ := inBounds_iff.mp hb
    exact inBounds_iff.mpr ⟨fun x hx => bcr x (hcr hx), fun x hx => bcw x (hcw hx), fun x hx => bpr x (hpr hx),
      fun x hx => bpw x (hpw hx)⟩
  · rw [State.raced, List.any_eq_false] at hr ⊢
    exact fun x hx hxj => hr x hx (h.interferes hxj)

/-- Block `n` of a transform with more than `n` blocks. -/
theorem transformFootprint_within {bps blocks n : Nat} (hn : n < blocks) (a b : Nat) :
    (transformFootprint bps 1 (a + 16 * n) (b + 4 * n)).Within (transformFootprint bps blocks a b) := by
  have hregion : region bps ↑(b + 4 * n) (4 * 1) ⊆ region bps b (4 * blocks) := fun x hx => by
    obtain ⟨r, hr, k, hk, rfl⟩ := mem_region.mp hx
    exact mem_region.mpr ⟨r, hr, 4 * n + k, by omega, by rw [blockAddr_shift]⟩
  refine ⟨fun x hx => ?_, List.nil_subset _, hregion, hregion⟩
  obtain ⟨m, hm, rfl⟩ := mem_run.mp hx
  exact mem_run.mpr ⟨16 * n + m, by omega, by push_cast; ring⟩

theorem admission_transform_of_transform2 {s : State} {a b n : Nat} (hn : n < 2)
    (hadm : s.admission (.transform2 a b) = .none) : s.admission (.transform (a + 16 * n) (b + 4 * n)) = .none :=
  admission_of_within (i := .transform2 a b) Instr.noConfusion (transformFootprint_within hn a b) rfl
    hadm

/-- A transform does not change what a transform of the region beside it stores: `exec_after_disjoint` for the two. -/
theorem exec_transform_after_transform {s : State} {a b a' b' : Nat} (hf : s.fault = .none)
    (hadm : s.admission (.transform a b) = .none) (hadm' : s.admission (.transform a' b') = .none)
    (hdisj : ∀ r < 4, ∀ k < 4, ∀ r' < 4, ∀ k' < 4, blockAddr s.cfg.bps b r k ≠ blockAddr s.cfg.bps b' r' k') :
    exec (.transform a' b') (s.storePix (pixCells s (.transform a b))) =
      .next ((s.storePix (pixCells s (.transform a b))).storePix (pixCells s (.transform a' b'))) := by
  have hpix : ∀ x ∈ (footprint s.cfg.bps (.transform a b)).pixWrite,
      x ∉ (footprint s.cfg.bps (.transform a' b')).pixRead := by
    intro x hx hx'
    obtain ⟨r, hr, k, hk, rfl⟩ := mem_region.mp hx
    obtain ⟨r', hr', k', hk', h⟩ := mem_region.mp hx'
    exact hdisj r hr k hk r' hr' k' hk' (Int.ofNat_inj.mp h)
  obtain ⟨hexec, hcells, -⟩ := exec_after_disjoint s _ _ hf hadm hadm' Instr.noConfusion Instr.noConfusion hpix
    fun x hx => absurd hx List.not_mem_nil
  rw [← afterCommand_eq_storePix s (.transform a b) Instr.noConfusion rfl, hexec,
    afterCommand_eq_storePix _ (.transform a' b') Instr.noConfusion rfl, hcells]

theorem storePix_comm {s : State} {l l' : List (Nat × Sample)} (hpix : s.pix.wf)
    (hd : ∀ c ∈ l, ∀ d ∈ l', c.1 ≠ d.1) : (s.storePix l).storePix l' = (s.storePix l').storePix l := by
  simp only [State.storePix, Mem.writeAll_comm _ hpix _ _ hd]

/-- Settles O31: each block's transform is admitted and stores its block's cells, and the two stores commute. -/
theorem transform2IsTwoTransforms : Obligations.Transform2IsTwoTransforms := by
  unfold Obligations.Transform2IsTwoTransforms
  intro s a b hcfg hpix hf hadm
  obtain ⟨hbps, -, -⟩ := hcfg
  have hadm0 : s.admission (.transform a b) = .none := admission_transform_of_transform2 (n := 0) (by decide) hadm
  have hadm1 : s.admission (.transform (a + 16) (b + 4)) = .none :=
    admission_transform_of_transform2 (n := 1) (by decide) hadm
  have hexec {i : Instr} (hi : i ≠ .init) (hc : coefCells s i = []) (h : s.admission i = .none) :
      exec i s = .next (s.storePix (pixCells s i)) := by
    rw [exec_of_admitted hf h, afterCommand_eq_storePix s i hi hc]
  have hdisj := blockAddr_ne_shift (bps := s.cfg.bps) (by omega) b
  have hstore : s.storePix (pixCells s (.transform2 a b)) =
      (s.storePix (pixCells s (.transform a b))).storePix (pixCells s (.transform (a + 16) (b + 4))) :=
    storePix_append ..
  have hcomm : (s.storePix (pixCells s (.transform a b))).storePix (pixCells s (.transform (a + 16) (b + 4))) =
      (s.storePix (pixCells s (.transform (a + 16) (b + 4)))).storePix (pixCells s (.transform a b)) := by
    refine storePix_comm hpix fun c hc d hd => ?_
    obtain ⟨r, hr, k, hk, rfl⟩ := mem_blockCells.mp hc
    obtain ⟨r', hr', k', hk', rfl⟩ := mem_blockCells.mp hd
    exact hdisj r hr k hk r' hr' k' hk'
  refine ⟨_, _, _, hexec Instr.noConfusion rfl hadm, hexec Instr.noConfusion rfl hadm0, ?_,
    hexec Instr.noConfusion rfl hadm1, ?_⟩
  · rw [exec_transform_after_transform hf hadm0 hadm1 hdisj, hstore]
  · rw [exec_transform_after_transform hf hadm1 hadm0 fun r hr k hk r' hr' k' hk' =>
      (hdisj r' hr' k' hk' r hr k hk).symm, hstore, hcomm]

end Sys2Proof.Machine
end

section
/-! PROOFS. The arithmetic of the inverse Walsh-Hadamard transform (spec/42_inverse_wht.md R111 to R114): the sums a pass
makes, their ranges, and what the clamp at the store changes. -/

namespace Sys2Proof.Machine

/-! ## The sums of the two passes -/

/-- `HB` multiplies by `HM` (R111). -/
theorem get_hadamard (q : Quad) {i : Nat} (hi : i < 4) :
    (hadamard q).get i = ∑ r ∈ Finset.range 4, hadamardMatrix i r * q.get r := by
  simp only [Finset.sum_range_succ, Finset.sum_range_zero]
  interval_cases i <;> simp only [hadamard, hadamardMatrix, Block.get, Block.row, Quad.get] <;> ring

/-- The second pass sums a column of the first pass's outputs (R112). -/
theorem get_whtSum (x : Block) {i : Nat} (hi : i < 4) (j : Nat) :
    (whtSum x).get i j = ∑ r ∈ Finset.range 4, hadamardMatrix i r * (hadamard (x.row r)).get j := by
  rw [whtSum, Block.get_onColumns, get_hadamard _ hi]
  refine Finset.sum_congr rfl fun r hr => ?_
  rw [Quad.get_mk ((x.onRows hadamard).get · j) (Finset.mem_range.mp hr), Block.get_onRows]

theorem abs_hadamardMatrix {i r : Nat} (hi : i < 4) (hr : r < 4) : |hadamardMatrix i r| = 1 := by
  have hall : ∀ i < 4, ∀ r < 4, |hadamardMatrix i r| = 1 := by decide
  exact hall i hi r hr

/-! ## Ranges -/

theorem abs_hadamardMatrix_sum_le (f : Nat → Int) {i : Nat} (hi : i < 4) :
    |∑ r ∈ Finset.range 4, hadamardMatrix i r * f r| ≤ ∑ r ∈ Finset.range 4, |f r| := by
  refine (Finset.abs_sum_le_sum_abs _ _).trans (Finset.sum_le_sum fun r hr => ?_)
  rw [abs_mul, abs_hadamardMatrix hi (Finset.mem_range.mp hr), one_mul]

/-- Every sign of `S` is 1 or -1, so `S` is at most the sum of the absolute inputs. -/
theorem abs_get_whtSum_le (x : Block) {i j : Nat} (hi : i < 4) (hj : j < 4) :
    |(whtSum x).get i j| ≤ ∑ r ∈ Finset.range 4, ∑ c ∈ Finset.range 4, |x.get r c| := by
  rw [get_whtSum x hi]
  refine (abs_hadamardMatrix_sum_le _ hi).trans (Finset.sum_le_sum fun r _ => ?_)
  rw [get_hadamard _ hj]
  exact abs_hadamardMatrix_sum_le _ hj

/-- Row 0 of `HM` adds all four values, and each other row adds two and subtracts two. In a range that reaches further
below zero than above, the first bounds the sum from below and the second from above. -/
theorem hadamardMatrix_sum_bounds {f : Nat → Int} {lo hi : Int} (hlohi : hi ≤ -lo)
    (hf : ∀ r < 4, lo ≤ f r ∧ f r ≤ hi) {k : Nat} (hk : k < 4) :
    4 * lo ≤ ∑ r ∈ Finset.range 4, hadamardMatrix k r * f r ∧
      ∑ r ∈ Finset.range 4, hadamardMatrix k r * f r ≤ 2 * (hi - lo) := by
  have h0 := hf 0 (by decide)
  have h1 := hf 1 (by decide)
  have h2 := hf 2 (by decide)
  have h3 := hf 3 (by decide)
  simp only [Finset.sum_range_succ, Finset.sum_range_zero]
  interval_cases k <;> simp only [hadamardMatrix, Block.get, Block.row, Quad.get] <;> omega

/-- The upper limit is below `16 * 32768`: no output subtracts more than eight of its inputs. -/
theorem get_whtSum_bounds {x : Block} (hx : ∀ r < 4, ∀ c < 4, -32768 ≤ x.get r c ∧ x.get r c ≤ 32767)
    {i j : Nat} (hi : i < 4) (hj : j < 4) :
    -524288 ≤ (whtSum x).get i j ∧ (whtSum x).get i j ≤ 524284 := by
  have hrow : ∀ r < 4, -131072 ≤ (hadamard (x.row r)).get j ∧ (hadamard (x.row r)).get j ≤ 131070 := fun r hr => by
    rw [get_hadamard _ hj]
    exact hadamardMatrix_sum_bounds (by decide) (hx r hr) hj
  rw [get_whtSum x hi]
  exact hadamardMatrix_sum_bounds (by decide) hrow hi

theorem sum_abs_le_of_forall {x : Block} {bound : Int} (hx : ∀ r < 4, ∀ c < 4, |x.get r c| ≤ bound) :
    ∑ r ∈ Finset.range 4, ∑ c ∈ Finset.range 4, |x.get r c| ≤ 16 * bound :=
  calc ∑ r ∈ Finset.range 4, ∑ c ∈ Finset.range 4, |x.get r c|
      ≤ ∑ _r ∈ Finset.range 4, ∑ _c ∈ Finset.range 4, bound :=
        Finset.sum_le_sum fun r hr => Finset.sum_le_sum fun c hc =>
          hx r (Finset.mem_range.mp hr) c (Finset.mem_range.mp hc)
    _ = 16 * bound := by simp only [Finset.sum_const, Finset.card_range, nsmul_eq_mul]; ring

/-! ## Rounding and the clamp -/

/-- `y` lies between two limits when `S` lies between the least and the greatest sum that round to them (R113). -/
theorem roundWht_mem_iff (v lo hi : Int) :
    lo ≤ roundWht v ∧ roundWht v ≤ hi ↔ 8 * lo - 3 ≤ v ∧ v ≤ 8 * hi + 4 := by
  unfold roundWht sar
  omega

theorem satS16_of_mem {v : Int} (hlo : -32768 ≤ v) (hhi : v ≤ 32767) : satS16 v = v := by
  rw [satS16, clamp, if_neg (not_lt.mpr hlo), if_neg (not_lt.mpr hhi)]

/-- Settles O38: `S` is at most 524284 for 16-bit inputs, and the sum of the absolute inputs bounds it for all. -/
theorem whtClampIsIdleInRange : Obligations.WhtClampIsIdleInRange := by
  unfold Obligations.WhtClampIsIdleInRange
  refine ⟨fun v => toInt_coefOf _, fun x hx i hi j hj => ?_, fun v hlo hhi => ?_, fun x hx i hi j hj => ?_,
    fun x hx => ?_⟩
  · obtain ⟨hlo, hhi⟩ := get_whtSum_bounds hx hi hj
    exact (roundWht_mem_iff _ _ _).mpr ⟨by omega, by omega⟩
  · obtain ⟨hlo', hhi'⟩ := (roundWht_mem_iff v (-32768) 32767).mpr ⟨by omega, by omega⟩
    exact satS16_of_mem hlo' hhi'
  · obtain ⟨hlo, hhi⟩ := abs_le.mp ((abs_get_whtSum_le x hi hj).trans hx)
    exact ⟨by omega, hhi⟩
  · exact (sum_abs_le_of_forall fun r hr c hc => abs_le.mpr (hx r hr c hc)).trans (by decide)

end Sys2Proof.Machine
end

section
/-! PROOFS. The per-position function of the loop filter (spec/43_loop_filter.md R126 to R130, R136, R138): the mask,
the closed form without signed space, and how far and when a sample moves. -/

namespace Sys2Proof.Machine

/-! ## The mask -/

theorem filterMask_eq_true_iff {p1 p0 q0 q1 : Sample} {t : Nat} :
    filterMask p1 p0 q0 q1 t = true ↔
      min 255 (min 255 (2 * |(p0.toNat : Int) - q0.toNat|) + sar |(p1.toNat : Int) - q1.toNat| 1) ≤ t :=
  decide_eq_true_iff

/-- A threshold below 255 is passed only by sums that neither saturation changes (R126). -/
theorem filterMask_eq_true_iff_of_le {p1 p0 q0 q1 : Sample} {t : Nat} (ht : t ≤ 254) :
    filterMask p1 p0 q0 q1 t = true ↔
      2 * |(p0.toNat : Int) - q0.toNat| + sar |(p1.toNat : Int) - q1.toNat| 1 ≤ t := by
  have hside : 0 ≤ sar |(p1.toNat : Int) - q1.toNat| 1 := Int.ediv_nonneg (abs_nonneg _) (by decide)
  rw [filterMask_eq_true_iff]
  omega

/-- Settles O46: the outer saturation bounds the activity by 255. -/
theorem maskSaturatesAt255 : Obligations.MaskSaturatesAt255 := by
  unfold Obligations.MaskSaturatesAt255
  exact ⟨fun _ _ _ _ _ => filterMask_eq_true_iff, fun _ _ _ _ _ => filterMask_eq_true_iff_of_le,
    fun _ _ _ _ => filterMask_eq_true_iff.mpr (min_le_left _ _)⟩

/-! ## The closed form -/

theorem signedSample_sub (u v : Sample) : signedSample u - signedSample v = (u.toNat : Int) - v.toNat := by
  rw [signedSample_eq, signedSample_eq]
  omega

/-- The two saturations are one, 128 apart (R129). -/
theorem satS8_add_128 (v : Int) : satS8 v + 128 = satU8 (v + 128) := by
  unfold satS8 satU8 clamp
  split_ifs <;> omega

/-- A saturated sum to which more is added in its own direction need not have been saturated before. -/
theorem satS8_satS8_add {a d v : Int} (hlo : -128 ≤ a) (hhi : a ≤ 127) (h : 0 ≤ d ∧ a ≤ v ∨ d ≤ 0 ∧ v ≤ a) :
    satS8 (satS8 v + d) = satS8 (v + d) := by
  unfold satS8 clamp
  split_ifs <;> omega

/-- A step that saturates outweighs every `a`: three of it saturate as the unsaturated step does. -/
theorem satS8_add_three_satS8 {a : Int} (hlo : -128 ≤ a) (hhi : a ≤ 127) (d : Int) :
    satS8 (a + 3 * satS8 d) = satS8 (a + 3 * d) := by
  unfold satS8 clamp
  split_ifs <;> omega

/-- Saturating after each of the three steps is saturating once at the end (R129). -/
theorem satS8_three_steps {a : Int} (hlo : -128 ≤ a) (hhi : a ≤ 127) (d : Int) :
    satS8 (satS8 (satS8 (a + d) + d) + d) = satS8 (a + 3 * d) := by
  rw [satS8_satS8_add (v := a + d) hlo hhi (by omega), satS8_satS8_add (v := a + d + d) hlo hhi (by omega)]
  congr 1
  omega

theorem filterDelta_eq (p1 p0 q0 q1 : Sample) :
    filterDelta p1 p0 q0 q1 =
      satS8 (satS8 ((p1.toNat : Int) - q1.toNat) + 3 * ((q0.toNat : Int) - p0.toNat)) := by
  obtain ⟨hlo, hhi⟩ := satS8_bounds ((p1.toNat : Int) - q1.toNat)
  simp only [filterDelta, signedSample_sub]
  rw [satS8_three_steps hlo hhi, satS8_add_three_satS8 hlo hhi]

theorem satS8_signedSample_add (u : Sample) (f : Int) : satS8 (signedSample u + f) + 128 = satU8 (u.toNat + f) := by
  rw [satS8_add_128, signedSample_eq]
  congr 1
  omega

theorem toNat_filteredP (p0 : Sample) (delta : Int) :
    ((filteredP p0 delta).toNat : Int) = satU8 (p0.toNat + filterStepP delta) := by
  obtain ⟨hlo, hhi⟩ := satS8_bounds (signedSample p0 + filterStepP delta)
  rw [filteredP, toNat_unsignedSample _ hlo hhi, satS8_signedSample_add]

theorem toNat_filteredQ (q0 : Sample) (delta : Int) :
    ((filteredQ q0 delta).toNat : Int) = satU8 (q0.toNat + -filterStepQ delta) := by
  obtain ⟨hlo, hhi⟩ := satS8_bounds (signedSample q0 - filterStepQ delta)
  rw [filteredQ, toNat_unsignedSample _ hlo hhi, sub_eq_add_neg, satS8_signedSample_add]

/-- Settles O45: signed space shifts every sample by 128, and of the saturations of `delta` only the last is needed. -/
theorem filterEqualsClosedForm : Obligations.FilterEqualsClosedForm := by
  unfold Obligations.FilterEqualsClosedForm
  exact fun p1 p0 q0 q1 => ⟨signedSample_sub q0 p0, signedSample_sub p1 q1, satS8_signedSample_add p0,
    filterDelta_eq p1 p0 q0 q1, fun delta _ _ => ⟨toNat_filteredP p0 delta, toNat_filteredQ q0 delta⟩⟩

/-! ## How far a sample moves -/

theorem filterStepP_bounds (delta : Int) : -16 ≤ filterStepP delta ∧ filterStepP delta ≤ 15 := by
  have := satS8_bounds (delta + 3)
  unfold filterStepP sar
  omega

theorem filterStepQ_bounds (delta : Int) : -16 ≤ filterStepQ delta ∧ filterStepQ delta ≤ 15 := by
  have := satS8_bounds (delta + 4)
  unfold filterStepQ sar
  omega

/-- The clamp moves a sample no further than the step does. -/
theorem satU8_add_sub_bounds (u : Sample) {f lo hi : Int} (hlo : lo ≤ f) (hlo0 : lo ≤ 0) (hhi : f ≤ hi)
    (hhi0 : 0 ≤ hi) :
    lo ≤ satU8 (u.toNat + f) - u.toNat ∧ satU8 (u.toNat + f) - u.toNat ≤ hi := by
  have := u.isLt
  unfold satU8 clamp
  split_ifs <;> omega

/-- Settles O49: both steps lie in -16..15, and `q0` moves against its step. -/
theorem filterMovesP0AndQ0ByAtMostSixteen : Obligations.FilterMovesP0AndQ0ByAtMostSixteen := by
  unfold Obligations.FilterMovesP0AndQ0ByAtMostSixteen
  intro p1 p0 q0 q1 t
  refine ⟨filt_of_not_mask, ?_⟩
  cases hmask : filterMask p1 p0 q0 q1 t with
  | false =>
    simp [filt_of_not_mask hmask]
  | true =>
    rw [filt_of_mask hmask, toNat_filteredP, toNat_filteredQ]
    obtain ⟨hPlo, hPhi⟩ := filterStepP_bounds (filterDelta p1 p0 q0 q1)
    obtain ⟨hQlo, hQhi⟩ := filterStepQ_bounds (filterDelta p1 p0 q0 q1)
    obtain ⟨hp, hp'⟩ := satU8_add_sub_bounds p0 hPlo (by decide) hPhi (by decide)
    obtain ⟨hq, hq'⟩ := satU8_add_sub_bounds q0 (f := -filterStepQ (filterDelta p1 p0 q0 q1)) (lo := -15) (hi := 16)
      (by omega) (by decide) (by omega) (by decide)
    exact ⟨hp, hp', hq, hq'⟩

/-! ## When a sample moves -/

theorem filterStepP_pos_iff (delta : Int) : 0 < filterStepP delta ↔ 5 ≤ delta := by
  unfold filterStepP sar satS8 clamp
  split_ifs <;> omega

theorem filterStepP_neg_iff (delta : Int) : filterStepP delta < 0 ↔ delta ≤ -4 := by
  unfold filterStepP sar satS8 clamp
  split_ifs <;> omega

theorem filterStepQ_pos_iff (delta : Int) : 0 < filterStepQ delta ↔ 4 ≤ delta := by
  unfold filterStepQ sar satS8 clamp
  split_ifs <;> omega

theorem filterStepQ_neg_iff (delta : Int) : filterStepQ delta < 0 ↔ delta ≤ -5 := by
  unfold filterStepQ sar satS8 clamp
  split_ifs <;> omega

/-- A step changes a sample unless it is 0 or the clamp absorbs it, which happens at the end of the range only. -/
theorem satU8_add_ne_iff (u : Sample) (f : Int) :
    satU8 (u.toNat + f) ≠ u.toNat ↔ (0 < f ∧ u ≠ 255) ∨ (f < 0 ∧ u ≠ 0) := by
  have := u.isLt
  rw [ne_eq, ne_eq, ne_eq, sample_eq_iff u 255, sample_eq_iff u 0, show ((255 : Sample).toNat : Int) = 255 from rfl,
    show ((0 : Sample).toNat : Int) = 0 from rfl]
  unfold satU8 clamp
  split_ifs <;> omega

theorem filteredP_ne_iff (p0 : Sample) (delta : Int) :
    filteredP p0 delta ≠ p0 ↔ (5 ≤ delta ∧ p0 ≠ 255) ∨ (delta ≤ -4 ∧ p0 ≠ 0) := by
  rw [ne_eq, sample_eq_iff, toNat_filteredP, ← ne_eq, satU8_add_ne_iff, filterStepP_pos_iff, filterStepP_neg_iff]

theorem filteredQ_ne_iff (q0 : Sample) (delta : Int) :
    filteredQ q0 delta ≠ q0 ↔ (4 ≤ delta ∧ q0 ≠ 0) ∨ (delta ≤ -5 ∧ q0 ≠ 255) := by
  rw [ne_eq, sample_eq_iff, toNat_filteredQ, ← ne_eq, satU8_add_ne_iff, neg_pos, neg_lt_zero, filterStepQ_pos_iff,
    filterStepQ_neg_iff, or_comm]

/-- A `delta` in -3..3 makes both steps 0 (R138). -/
theorem filt_of_small_delta {p1 p0 q0 q1 : Sample} {t : Nat} (hmask : filterMask p1 p0 q0 q1 t = true)
    (hlo : -3 ≤ filterDelta p1 p0 q0 q1) (hhi : filterDelta p1 p0 q0 q1 ≤ 3) : filt p1 p0 q0 q1 t = (p0, q0) := by
  rw [filt_of_mask hmask, Prod.mk.injEq]
  constructor
  · by_contra hp
    have := (filteredP_ne_iff _ _).mp hp
    omega
  · by_contra hq
    have := (filteredQ_ne_iff _ _).mp hq
    omega

/-- Settles O47: the signs of the two steps say which way a sample would move. -/
theorem passingPositionChangesExactly : Obligations.PassingPositionChangesExactly := by
  unfold Obligations.PassingPositionChangesExactly
  intro p1 p0 q0 q1 t hmask
  refine ⟨?_, ?_, filt_of_small_delta hmask⟩ <;> rw [filt_of_mask hmask]
  · exact filteredQ_ne_iff _ _
  · exact filteredP_ne_iff _ _

end Sys2Proof.Machine
end

section
/-! PROOFS. What the four filter commands do (spec/43_loop_filter.md R132 to R135, R137): the outcomes they share, the
samples an edge and three inner edges leave, and that nothing changes with threshold 0. -/

namespace Sys2Proof.Machine

/-! ## Outcomes -/

/-- The outcomes of a command that stores pixels alone and is not checked for sparsity, on a clear latch without
interference, when `P` says that it is in bounds. -/
theorem exec_pixel_command_outcome {s : State} {i : Instr} {P : Prop} (hinit : i ≠ .init) (hcoef : coefCells s i = [])
    (hsparse : s.sparse i = true) (hb : inBounds s.cfg i = true ↔ P) (hf : s.fault = .none)
    (hr : s.raced i = false) :
    (s.initDone = false → exec i s = .next { s with fault := .notInitialized }) ∧
    (s.initDone = true → ¬P → exec i s = .next { s with fault := .bounds }) ∧
    (s.initDone = true → P → exec i s = .next (s.storePix (pixCells s i))) := by
  obtain ⟨huninit, hbounds, -, hadmitted⟩ := exec_outcome s i hinit hf hr
  rw [← afterCommand_eq_storePix s i hinit hcoef]
  exact ⟨huninit, fun hi hn => hbounds hi (Bool.eq_false_iff.mpr (mt hb.mp hn)),
    fun hi hp => hadmitted hi (hb.mpr hp) hsparse⟩

theorem inBounds_edge_iff {cfg : Config} {i : Instr} {e ps ss : Nat}
    (hfoot : footprint cfg.bps i = edgeFootprint e ps ss) :
    inBounds cfg i = true ↔ 2 * ss ≤ e ∧ e + 15 * ps + ss < cfg.pixSize := by
  simp only [inBounds, hfoot, edgeFootprint, inSpace_nil, Bool.true_and, inSpace_edge_iff]

theorem inBounds_inner_iff {cfg : Config} {i : Instr} {b ps ss : Nat}
    (hfoot : footprint cfg.bps i = innerFootprint b ps ss) :
    inBounds cfg i = true ↔ b + 15 * ps + 13 * ss < cfg.pixSize := by
  simp only [inBounds, hfoot, innerFootprint, inSpace_nil, Bool.true_and, inSpace_inner_iff]

/-! ## One edge -/

/-- What a command does that stores one edge: the two samples of each position, and the frame (R130, R131). -/
theorem exec_edge_spec {s : State} {i : Instr} {e ps ss t : Nat} (hpix : s.pix.wf) (hd : EdgeDistinct e ps ss)
    (hexec : exec i s = .next (s.storePix (edgeCells s e ps ss t))) :
    ∃ z, exec i s = .next z ∧ z = { s with pix := z.pix } ∧
      (∀ j < 16, (z.pixel (e + j * ps - ss), z.pixel (e + j * ps)) =
        filt (s.pixel (e + j * ps - 2 * ss)) (s.pixel (e + j * ps - ss)) (s.pixel (e + j * ps))
          (s.pixel (e + j * ps + ss)) t) ∧
      (∀ x, (∀ j < 16, x ≠ e + j * ps - ss ∧ x ≠ e + j * ps) → z.pixel x = s.pixel x) :=
  ⟨_, hexec, storePix_eq .., fun _ hj => pixel_store_edge s e ps ss t hpix hd hj,
    fun x hx => pixel_store_edge_other s e ps ss t x hx⟩

/-- Settles O39: a horizontal edge, its positions one cell apart and its samples one row. -/
theorem simpleVfilter16Contract : Obligations.SimpleVfilter16Contract := by
  unfold Obligations.SimpleVfilter16Contract
  intro s b t hcfg hpix hf hrace
  obtain ⟨hbps, -, -⟩ := hcfg
  have hb : inBounds s.cfg (.simpleVfilter16 b t) = true ↔ 2 * s.cfg.bps ≤ b ∧ b + s.cfg.bps + 15 < s.cfg.pixSize := by
    rw [inBounds_edge_iff rfl]
    omega
  obtain ⟨huninit, hbounds, hadmitted⟩ := exec_pixel_command_outcome Instr.noConfusion rfl rfl hb hf hrace
  refine ⟨fun hi hlo hhi => ?_, huninit, hbounds⟩
  simpa only [Nat.mul_one] using
    exec_edge_spec hpix (edgeDistinct_horizontal hbps (by omega)) (hadmitted hi ⟨hlo, hhi⟩)

/-- Settles O40: a vertical edge, its positions one row apart and its samples one cell. -/
theorem simpleHfilter16Contract : Obligations.SimpleHfilter16Contract := by
  unfold Obligations.SimpleHfilter16Contract
  intro s b t hcfg hpix hf hrace
  obtain ⟨hbps, -, -⟩ := hcfg
  have hb : inBounds s.cfg (.simpleHfilter16 b t) = true ↔ 2 ≤ b ∧ b + 15 * s.cfg.bps + 1 < s.cfg.pixSize :=
    inBounds_edge_iff (ss := 1) rfl
  obtain ⟨huninit, hbounds, hadmitted⟩ := exec_pixel_command_outcome Instr.noConfusion rfl rfl hb hf hrace
  refine ⟨fun hi hlo hhi => ?_, huninit, hbounds⟩
  exact exec_edge_spec hpix (edgeDistinct_vertical hbps (by omega)) (hadmitted hi ⟨hlo, hhi⟩)

/-! ## Three inner edges -/

/-- What a command does that stores the three inner edges: the two samples of each position of each edge, and the frame
(R134, R135). Cell `(y, j)` of the macroblock lies `y` sample steps and `j` position steps from its first. -/
theorem exec_inner_spec {s : State} {i : Instr} {b ps ss t : Nat} {cell : Nat → Nat → Nat} (hpix : s.pix.wf)
    (hcell : ∀ y j, cell y j = b + y * ss + j * ps)
    (hd : ∀ e ∈ innerEdges, EdgeDistinct (b + e * ss) ps ss) (hinner : InnerDistinct b ps ss)
    (hexec : exec i s = .next (s.storePix (innerEdgeCells s b ps ss t))) :
    ∃ z, exec i s = .next z ∧ z = { s with pix := z.pix } ∧
      (∀ e ∈ [4, 8, 12], ∀ j < 16, (z.pixel (cell (e - 1) j), z.pixel (cell e j)) =
        filt (s.pixel (cell (e - 2) j)) (s.pixel (cell (e - 1) j)) (s.pixel (cell e j)) (s.pixel (cell (e + 1) j)) t) ∧
      (∀ x, (∀ y ∈ [3, 4, 7, 8, 11, 12], ∀ j < 16, x ≠ cell y j) → z.pixel x = s.pixel x) := by
  have hsub (e j n : Nat) (hn : n ≤ e) : cell (e - n) j = b + e * ss + j * ps - n * ss := by
    have := Nat.mul_le_mul_right ss hn
    rw [hcell, Nat.sub_mul]
    omega
  have hsucc (e j : Nat) : cell (e + 1) j = b + e * ss + j * ps + ss := by
    rw [hcell, Nat.succ_mul]
    omega
  have hedges : ∀ e ∈ innerEdges, 2 ≤ e ∧ e - 1 ∈ [3, 4, 7, 8, 11, 12] ∧ e ∈ [3, 4, 7, 8, 11, 12] := by decide
  refine ⟨_, hexec, storePix_eq .., fun e he j hj => ?_, fun x hx => ?_⟩
  · obtain ⟨htwo, -, -⟩ := hedges e he
    rw [hsub e j 2 htwo, hsub e j 1 (by omega), hsucc, hcell, Nat.one_mul]
    exact pixel_store_inner s b ps ss t hpix hd hinner he hj
  · refine pixel_store_inner_other s b ps ss t x fun e he j hj => ?_
    obtain ⟨htwo, hbefore, hafter⟩ := hedges e he
    have hp := hx (e - 1) hbefore j hj
    rw [hsub e j 1 (by omega), Nat.one_mul] at hp
    exact ⟨hp, hcell e j ▸ hx e hafter j hj⟩

theorem pos_of_mem_innerEdges : ∀ e ∈ innerEdges, 0 < e := by decide

/-- Settles O41: three horizontal edges, a row of the macroblock being one sample step. -/
theorem simpleVfilter16iContract : Obligations.SimpleVfilter16iContract := by
  unfold Obligations.SimpleVfilter16iContract
  intro s b t hcfg hpix hf hrace
  obtain ⟨hbps, -, -⟩ := hcfg
  have hb : inBounds s.cfg (.simpleVfilter16i b t) = true ↔ b + 13 * s.cfg.bps + 15 < s.cfg.pixSize := by
    rw [inBounds_inner_iff rfl]
    omega
  obtain ⟨huninit, hbounds, hadmitted⟩ := exec_pixel_command_outcome Instr.noConfusion rfl rfl hb hf hrace
  refine ⟨fun hi hp => ?_, huninit, hbounds⟩
  refine exec_inner_spec (cell := fun y j => b + y * s.cfg.bps + j) hpix (fun y j => by rw [Nat.mul_one])
    (fun e he => edgeDistinct_horizontal hbps ?_) (innerDistinct_horizontal hbps) (hadmitted hi hp)
  exact (Nat.le_mul_of_pos_left _ (pos_of_mem_innerEdges e he)).trans (Nat.le_add_left _ _)

/-- Settles O42: three vertical edges, a column of the macroblock being one sample step. -/
theorem simpleHfilter16iContract : Obligations.SimpleHfilter16iContract := by
  unfold Obligations.SimpleHfilter16iContract
  intro s b t hcfg hpix hf hrace
  obtain ⟨hbps, -, -⟩ := hcfg
  have hb : inBounds s.cfg (.simpleHfilter16i b t) = true ↔ b + 15 * s.cfg.bps + 13 < s.cfg.pixSize :=
    inBounds_inner_iff (ss := 1) rfl
  obtain ⟨huninit, hbounds, hadmitted⟩ := exec_pixel_command_outcome Instr.noConfusion rfl rfl hb hf hrace
  refine ⟨fun hi hp => ?_, huninit, hbounds⟩
  refine exec_inner_spec (cell := fun y j => b + j * s.cfg.bps + y) hpix (fun y j => by omega)
    (fun e he => edgeDistinct_vertical hbps ?_) (innerDistinct_vertical hbps) (hadmitted hi hp)
  have := pos_of_mem_innerEdges e he
  omega

/-! ## Threshold 0 -/

theorem filterMask_zero_iff (p1 p0 q0 q1 : Sample) :
    filterMask p1 p0 q0 q1 0 = true ↔ p0 = q0 ∧ |(p1.toNat : Int) - q1.toNat| ≤ 1 := by
  rw [filterMask_eq_true_iff_of_le (by decide), sample_eq_iff, ← sub_eq_zero, ← abs_eq_zero, sar]
  have := abs_nonneg ((p0.toNat : Int) - q0.toNat)
  have := abs_nonneg ((p1.toNat : Int) - q1.toNat)
  omega

/-- With threshold 0 a position that passes has a `delta` in -1..1 (R137). -/
theorem filt_zero (p1 p0 q0 q1 : Sample) : filt p1 p0 q0 q1 0 = (p0, q0) := by
  cases hmask : filterMask p1 p0 q0 q1 0 with
  | false => exact filt_of_not_mask hmask
  | true =>
    obtain ⟨rfl, hside⟩ := (filterMask_zero_iff p1 p0 q0 q1).mp hmask
    have hdelta : -1 ≤ filterDelta p1 p0 p0 q1 ∧ filterDelta p1 p0 p0 q1 ≤ 1 := by
      rw [abs_le] at hside
      rw [filterDelta_eq, sub_self]
      unfold satS8 clamp
      split_ifs <;> omega
    exact filt_of_small_delta hmask (by omega) (by omega)

/-- Storing what is there already changes nothing. -/
theorem Mem.writeAll_of_read {n : Nat} {m : Mem n} (hm : m.wf) {l : List (Nat × BitVec n)}
    (hl : ∀ c ∈ l, c.2 = m.read c.1) : m.writeAll l = m := by
  refine Mem.ext_of_read _ _ (Mem.wf_writeAll m l hm) hm fun x => ?_
  by_cases hx : ∃ c ∈ l, c.1 = x
  · obtain ⟨c, hc, rfl⟩ := hx
    exact Mem.read_writeAll_of_mem m l c.1 _ hm (hl c hc ▸ hc) fun d hd hdx => hdx ▸ hl d hd
  · push Not at hx
    exact Mem.read_writeAll_other m l x hx

theorem edgeCells_zero {s : State} {e ps ss : Nat} : ∀ c ∈ edgeCells s e ps ss 0, c.2 = s.pix.read c.1 := by
  intro c hc
  obtain ⟨i, -, rfl | rfl⟩ := mem_edgeCells.mp hc <;> rw [filtAt, filt_zero] <;> rfl

theorem innerEdgeCells_zero {s : State} {b ps ss : Nat} :
    ∀ c ∈ innerEdgeCells s b ps ss 0, c.2 = s.pix.read c.1 := by
  intro c hc
  obtain ⟨e, -, hc⟩ := mem_innerEdgeCells.mp hc
  exact edgeCells_zero c hc

/-- Settles O48: with threshold 0 every sample is stored as it was. -/
theorem thresholdZeroChangesNothing : Obligations.ThresholdZeroChangesNothing := by
  unfold Obligations.ThresholdZeroChangesNothing
  refine ⟨filterMask_zero_iff, fun s t b i hpix hi ht => ?_⟩
  have hcells : ∀ c ∈ pixCells s i, c.2 = s.pix.read c.1 := by
    simp only [List.mem_cons, List.not_mem_nil, or_false] at hi
    rcases hi with rfl | rfl | rfl | rfl
    · exact edgeCells_zero
    · exact edgeCells_zero
    · exact innerEdgeCells_zero
    · exact innerEdgeCells_zero
  rcases exec_cases s i with ⟨-, he⟩ | ⟨-, -, he⟩ | ⟨-, -, he⟩ <;>
    obtain rfl := Host.Outcome.next.inj (he.symm.trans ht)
  · rfl
  · rfl
  · exact Mem.writeAll_of_read hpix hcells

end Sys2Proof.Machine
end

section
/-! PROOFS. The three inner edges one by one (spec/43_loop_filter.md R134, R135, R140): each edge's command is admitted
with the whole, no edge stores a cell that another reads, and so every order leaves one state. -/

namespace Sys2Proof.Machine

/-! ## Stores before a command -/

/-- No admission check looks at a pixel. -/
theorem admission_storePix (s : State) (l : List (Nat × Sample)) (i : Instr) :
    (s.storePix l).admission i = s.admission i := by
  cases i <;> rfl

/-- An admitted command that stores pixels alone stores the same cells after a store to cells it does not read. -/
theorem exec_storePix {s : State} {i : Instr} {l : List (Nat × Sample)} (hinit : i ≠ .init)
    (hcoef : ∀ s, coefCells s i = []) (hf : s.fault = .none) (hadm : s.admission i = .none)
    (hl : ∀ c ∈ l, (c.1 : Int) ∉ (footprint s.cfg.bps i).pixRead) :
    exec i (s.storePix l) = .next (s.storePix (l ++ pixCells s i)) := by
  have hread : ∀ x : Nat, (x : Int) ∈ (footprint s.cfg.bps i).pixRead → s.pixel x = (s.storePix l).pixel x :=
    fun x hx => (pixel_storePix_other s l x fun c hc hcx => hl c hc (hcx ▸ hx)).symm
  obtain ⟨hcells, -⟩ := cells_congr (inBounds_of_admitted hadm) (s' := s.storePix l) rfl hread fun _ _ => rfl
  rw [exec_of_admitted (s := s.storePix l) hf ((admission_storePix s l i).trans hadm),
    afterCommand_eq_storePix _ i hinit (hcoef _), ← hcells, storePix_append]

/-- Lists of cells without a common address may be stored in any order. -/
theorem storePix_flatMap_perm {s : State} {cells : Nat → List (Nat × Sample)} {es es' : List Nat}
    (hperm : es.Perm es') (hpix : s.pix.wf)
    (hd : es.Pairwise fun e e' => ∀ c ∈ cells e, ∀ d ∈ cells e', c.1 ≠ d.1) :
    s.storePix (es.flatMap cells) = s.storePix (es'.flatMap cells) := by
  induction hperm generalizing s with
  | nil => rfl
  | cons e _ ih =>
    rw [List.flatMap_cons, List.flatMap_cons, storePix_append, storePix_append]
    exact ih (Mem.wf_writeAll _ _ hpix) hd.tail
  | swap e e' es =>
    simp only [List.flatMap_cons, storePix_append]
    rw [storePix_comm hpix ((List.pairwise_cons.mp hd).1 e (List.mem_cons_self ..))]
  | trans hperm _ ih ih' =>
    exact (ih hpix hd).trans (ih' hpix ((hperm.pairwise_iff fun h c hc d hd => (h d hd c hc).symm).mp hd))

/-! ## The edges of a macroblock -/

theorem innerEdges_nodup : innerEdges.Nodup := by decide

/-- The cells an edge stores are among those it reads (R44). -/
theorem edgeCellsAt_write_subset_read (e ps ss : Nat) :
    edgeCellsAt e ps ss writeTaps ⊆ edgeCellsAt e ps ss readTaps := by
  intro x hx
  obtain ⟨i, hi, j, hj, rfl⟩ := mem_edgeCellsAt.mp hx
  have htaps : writeTaps ⊆ readTaps := by decide
  exact mem_edgeCellsAt.mpr ⟨i, hi, j, htaps hj, rfl⟩

/-- No two inner edges read a common cell (R140). -/
theorem innerEdges_disjoint {ps ss : Nat} (hs : StridesSeparate ps ss) (b : Nat) {e e' : Nat} (he : e ∈ innerEdges)
    (he' : e' ∈ innerEdges) (hne : e ≠ e') :
    List.Disjoint (edgeCellsAt (b + e * ss) ps ss readTaps) (edgeCellsAt (b + e' * ss) ps ss readTaps) := by
  obtain ⟨-, hpairwise⟩ :=
    List.nodup_flatMap.mp (innerCellsAt_nodup (b := b) (taps := readTaps) hs (by decide) (by decide))
  have hsymm : Std.Symm (Function.onFun List.Disjoint fun e => edgeCellsAt (b + e * ss) ps ss readTaps) :=
    ⟨fun _ _ h => List.Disjoint.symm h⟩
  exact hpairwise.forall he he' hne

theorem edgeFootprint_within {e : Nat} (he : e ∈ innerEdges) (b ps ss : Nat) :
    (edgeFootprint (b + e * ss) ps ss).Within (innerFootprint b ps ss) :=
  ⟨List.nil_subset _, List.nil_subset _, fun _ hx => List.mem_flatMap.mpr ⟨e, he, hx⟩,
    fun _ hx => List.mem_flatMap.mpr ⟨e, he, hx⟩⟩

/-- `whole` filters the inner edges of the macroblock at `b`, and `single e` is the command for edge `e` alone. -/
structure FiltersInnerEdges (s : State) (b ps ss : Nat) (whole : Instr) (single : Nat → Instr) : Prop where
  whole_ne_init : whole ≠ .init
  whole_footprint : footprint s.cfg.bps whole = innerFootprint b ps ss
  whole_coefCells : coefCells s whole = []
  whole_pixCells : pixCells s whole = innerEdges.flatMap fun e => pixCells s (single e)
  single_ne_init : ∀ e, single e ≠ .init
  single_footprint : ∀ e, footprint s.cfg.bps (single e) = edgeFootprint (b + e * ss) ps ss
  single_coefCells : ∀ e s, coefCells s (single e) = []
  single_sparse : ∀ e, s.sparse (single e) = true

section
variable {s : State} {b ps ss : Nat} {whole : Instr} {single : Nat → Instr}

theorem FiltersInnerEdges.admission_single (h : FiltersInnerEdges s b ps ss whole single)
    (hadm : s.admission whole = .none) {e : Nat} (he : e ∈ innerEdges) : s.admission (single e) = .none := by
  refine admission_of_within h.whole_ne_init ?_ (h.single_sparse e) hadm
  rw [h.single_footprint, h.whole_footprint]
  exact edgeFootprint_within he b ps ss

theorem FiltersInnerEdges.mem_of_mem_pixCells (h : FiltersInnerEdges s b ps ss whole single)
    (hadm : s.admission whole = .none) {e : Nat} (he : e ∈ innerEdges) {c : Nat × Sample}
    (hc : c ∈ pixCells s (single e)) : (c.1 : Int) ∈ edgeCellsAt (b + e * ss) ps ss readTaps := by
  have hwrite := (mem_pixWrite_iff (inBounds_of_admitted (h.admission_single hadm he)) c.1).mpr ⟨c, hc, rfl⟩
  rw [h.single_footprint] at hwrite
  exact edgeCellsAt_write_subset_read _ _ _ hwrite

/-- Edge `e` after others: it adds its own cells. -/
theorem FiltersInnerEdges.exec_single (h : FiltersInnerEdges s b ps ss whole single) (hs : StridesSeparate ps ss)
    (hf : s.fault = .none) (hadm : s.admission whole = .none) {before : List Nat} {e : Nat} (he : e ∈ innerEdges)
    (hbefore : ∀ e' ∈ before, e' ∈ innerEdges ∧ e' ≠ e) :
    exec (single e) (s.storePix (before.flatMap fun e => pixCells s (single e))) =
      .next (s.storePix ((before ++ [e]).flatMap fun e => pixCells s (single e))) := by
  rw [List.flatMap_append, List.flatMap_singleton]
  refine exec_storePix (h.single_ne_init e) (h.single_coefCells e) hf (h.admission_single hadm he) fun c hc => ?_
  obtain ⟨e', he', hc⟩ := List.mem_flatMap.mp hc
  obtain ⟨hmem, hne⟩ := hbefore e' he'
  rw [h.single_footprint]
  exact innerEdges_disjoint hs b hmem he hne (h.mem_of_mem_pixCells hadm hmem hc)

/-- The cells of all edges, stored in any order, are what the three-edge command stores. -/
theorem FiltersInnerEdges.exec_whole (h : FiltersInnerEdges s b ps ss whole single) (hs : StridesSeparate ps ss)
    (hpix : s.pix.wf) (hf : s.fault = .none) (hadm : s.admission whole = .none) {es : List Nat}
    (hes : es.Perm innerEdges) :
    exec whole s = .next (s.storePix (es.flatMap fun e => pixCells s (single e))) := by
  rw [exec_of_admitted hf hadm, afterCommand_eq_storePix s whole h.whole_ne_init h.whole_coefCells, h.whole_pixCells,
    storePix_flatMap_perm hes.symm hpix]
  refine innerEdges_nodup.pairwise_of_forall_ne fun e he e' he' hne c hc d hd hcd => ?_
  exact innerEdges_disjoint hs b he he' hne (h.mem_of_mem_pixCells hadm he hc)
    (hcd ▸ h.mem_of_mem_pixCells hadm he' hd)

/-- The three commands in the order `es`. -/
theorem FiltersInnerEdges.exec_in_any_order (h : FiltersInnerEdges s b ps ss whole single)
    (hs : StridesSeparate ps ss) (hpix : s.pix.wf) (hf : s.fault = .none) (hadm : s.admission whole = .none)
    {es : List Nat} (hes : es.Perm innerEdges) :
    ∃ e₁ e₂ e₃ u v z, es = [e₁, e₂, e₃] ∧ exec whole s = .next z ∧ exec (single e₁) s = .next u ∧
      exec (single e₂) u = .next v ∧ exec (single e₃) v = .next z := by
  have hwhole := h.exec_whole hs hpix hf hadm hes
  have hnodup : es.Nodup := hes.nodup_iff.mpr innerEdges_nodup
  obtain ⟨e₁, e₂, e₃, rfl⟩ := List.length_eq_three.mp hes.length_eq
  have hmem : ∀ e ∈ [e₁, e₂, e₃], e ∈ innerEdges := fun e he => hes.subset he
  simp only [List.nodup_cons, List.mem_cons, List.not_mem_nil, or_false, not_or] at hnodup
  simp only [List.forall_mem_cons] at hmem
  obtain ⟨⟨h12, h13⟩, h23, -⟩ := hnodup
  obtain ⟨h1, h2, h3, -⟩ := hmem
  refine ⟨e₁, e₂, e₃, _, _, _, rfl, hwhole, h.exec_single hs hf hadm (before := []) h1 (List.forall_mem_nil _),
    h.exec_single hs hf hadm (before := [e₁]) h2 ?_, h.exec_single hs hf hadm (before := [e₁, e₂]) h3 ?_⟩
  · exact List.forall_mem_singleton.mpr ⟨h1, h12⟩
  · exact List.forall_mem_cons.mpr ⟨⟨h1, h13⟩, List.forall_mem_singleton.mpr ⟨h2, h23⟩⟩

end

/-! ## The two commands -/

/-- Settles O43: the horizontal edges at rows 4, 8 and 12. -/
theorem vfilter16iIsThreeEdgesInAnyOrder : Obligations.Vfilter16iIsThreeEdgesInAnyOrder := by
  unfold Obligations.Vfilter16iIsThreeEdgesInAnyOrder
  intro s b t es hcfg hpix hf hadm hes
  obtain ⟨hbps, -, -⟩ := hcfg
  have hedges : FiltersInnerEdges s b 1 s.cfg.bps (.simpleVfilter16i b t)
      fun e => .simpleVfilter16 (b + e * s.cfg.bps) t :=
    ⟨Instr.noConfusion, rfl, rfl, rfl, fun _ => Instr.noConfusion, fun _ => rfl, fun _ _ => rfl, fun _ => rfl⟩
  exact hedges.exec_in_any_order (stridesSeparate_rows (by exact_mod_cast hbps)).swap hpix hf hadm hes

/-- Settles O44: the vertical edges at columns 4, 8 and 12. -/
theorem hfilter16iIsThreeEdgesInAnyOrder : Obligations.Hfilter16iIsThreeEdgesInAnyOrder := by
  unfold Obligations.Hfilter16iIsThreeEdgesInAnyOrder
  intro s b t es hcfg hpix hf hadm hes
  obtain ⟨hbps, -, -⟩ := hcfg
  have hedges : FiltersInnerEdges s b s.cfg.bps 1 (.simpleHfilter16i b t) fun e => .simpleHfilter16 (b + e * 1) t :=
    ⟨Instr.noConfusion, rfl, rfl, rfl, fun _ => Instr.noConfusion, fun _ => rfl, fun _ _ => rfl, fun _ => rfl⟩
  simpa only [Nat.mul_one] using
    hedges.exec_in_any_order (stridesSeparate_rows (by exact_mod_cast hbps)) hpix hf hadm hes

end Sys2Proof.Machine
end

section
/-! PROOFS. `INIT` (spec/44_dispatch_init.md R150, R151): its one word, and what it does to a core that has latched no
fault and to one that is initialised already. -/

namespace Sys2Proof.Machine

/-! ## The word -/

/-- A well-formed command has one word. -/
theorem decode_eq_command_iff_eq_encode {w : Word} {i : Instr} (hi : i.wf = true) :
    decode w = .command i ↔ w = encode i := by
  constructor
  · intro h
    exact (encodeOfDecode w i h).1.symm
  · rintro rfl
    exact decodeOfEncode i hi

/-! ## The effect -/

theorem setInitDone_of_initDone {s : State} (h : s.initDone = true) : s.setInitDone = s := by
  rw [State.setInitDone, ← h]

/-- `INIT` is the one command that is admitted before initialisation, and nothing but the latch is checked (R150). -/
theorem exec_init_of_clear {s : State} (hf : s.fault = .none) : exec .init s = .next s.setInitDone :=
  carryOut_of_admitted s s.setInitDone .init hf rfl

/-- R151; a core that has latched a fault ignores `INIT` as it does every command (R160). -/
theorem exec_init_of_initDone {s : State} (h : s.initDone = true) : exec .init s = .next s := by
  by_cases hf : s.fault = .none
  · rw [exec_init_of_clear hf, setInitDone_of_initDone h]
  · exact carryOut_of_latched s s.setInitDone .init hf

/-- Settles O23: 1 is the encoding of `INIT`, and every clear latch admits it. -/
theorem initSetsInitDoneOnly : Obligations.InitSetsInitDoneOnly := by
  unfold Obligations.InitSetsInitDoneOnly
  exact ⟨fun _ => decode_eq_command_iff_eq_encode rfl, fun _ => exec_init_of_clear⟩

/-- Settles O24: the first `INIT` leaves an initialised core, and there another one changes nothing. -/
theorem initIsIdempotent : Obligations.InitIsIdempotent := by
  unfold Obligations.InitIsIdempotent
  refine ⟨fun s t ht hf => ?_, fun _ => exec_init_of_initDone⟩
  obtain rfl := Host.Outcome.next.inj ((exec_init_of_clear hf).symm.trans ht)
  exact ⟨setInitDone_initDone s, exec_init_of_initDone (setInitDone_initDone s)⟩

end Sys2Proof.Machine
end

section
/-! PROOFS. Only reset takes a core back (spec/44_dispatch_init.md R153, spec/60_exceptions.md R160): every other action
of the host keeps each core's initialisation and its latch if that is set, proved one layer of the step at a time. -/

namespace Sys2Proof.Machine

/-- What core `c` has of initialisation and of a latched fault, `d` has too. -/
structure CoreState.KeptBy (c d : CoreState) : Prop where
  initDone : c.initDone = true → d.initDone = true
  fault : c.fault ≠ .none → d.fault = c.fault

theorem CoreState.KeptBy.refl (c : CoreState) : c.KeptBy c := ⟨id, fun _ => rfl⟩

/-- `t` has the cores of `s`, each keeping its initialisation and a latched fault. -/
def State.CoresKeptBy (s t : State) : Prop := List.Forall₂ CoreState.KeptBy s.cores t.cores

theorem forall₂_keptBy_refl (l : List CoreState) : List.Forall₂ CoreState.KeptBy l l :=
  List.forall₂_same.mpr fun c _ => CoreState.KeptBy.refl c

theorem State.CoresKeptBy.of_cores_eq {s t : State} (h : t.cores = s.cores) : s.CoresKeptBy t := by
  rw [State.CoresKeptBy, h]
  exact forall₂_keptBy_refl s.cores

/-- Only the current core need be looked at when the others are as they were. -/
theorem State.CoresKeptBy.of_current {s t : State} (hlower : t.lower = s.lower) (hhigher : t.higher = s.higher)
    (h : CoreState.KeptBy ⟨s.initDone, s.fault⟩ ⟨t.initDone, t.fault⟩) : s.CoresKeptBy t := by
  rw [State.CoresKeptBy, State.cores, State.cores, hlower, hhigher]
  exact List.rel_append (forall₂_keptBy_refl s.lower) (.cons h (forall₂_keptBy_refl s.higher))

/-! ## The layers of a step -/

/-- A word latches a fault on a clear latch only, and an admitted command can but set `INIT_DONE`. -/
theorem State.CoresKeptBy.runWord {s t : State} {w : Word} (ht : s.runWord w = .next t) : s.CoresKeptBy t := by
  rcases runWord_cases s w with ⟨-, he⟩ | ⟨c, hf, -, he, -⟩ | ⟨i, -, -, -, he⟩ <;>
    obtain rfl := Host.Outcome.next.inj (he.symm.trans ht)
  · exact .of_cores_eq rfl
  · exact .of_current rfl rfl ⟨id, fun hset => absurd hf hset⟩
  · refine .of_current rfl rfl ⟨fun hdone : s.initDone = true => ?_, fun _ => rfl⟩
    rw [afterCommand_initDone, hdone, ite_self]

theorem State.CoresKeptBy.perform {s t : State} {act : HostAction} (hact : ∀ pix coef, act ≠ .reset pix coef)
    (ht : s.perform act = .next t) : s.CoresKeptBy t := by
  cases act <;> simp only [State.perform] at ht
  case command k w during =>
    split at ht
    · cases ht
    case h_2 u hu =>
      have hkept : State.CoresKeptBy { u with contention := during } t := .runWord ht
      obtain ⟨hcores, -⟩ := select_eq_some hu
      rw [State.CoresKeptBy, ← hcores]
      exact hkept
  case writePix a v =>
    split_ifs at ht
    cases ht
    exact .of_cores_eq (storePix_cores s _)
  case writeCoef a v =>
    split_ifs at ht
    cases ht
    exact .of_cores_eq (storeCoef_cores s _)
  case reset pix coef => exact absurd rfl (hact pix coef)

/-- Settles O16: the action performed keeps every core, one by one in the list of cores. -/
theorem onlyResetClearsLatchAndInitDone : Obligations.OnlyResetClearsLatchAndInitDone := by
  unfold Obligations.OnlyResetClearsLatchAndInitDone
  intro s t act rest hhost hact ht
  have htaken : State.CoresKeptBy { s with host := rest } t := .perform hact ((step_of_host_cons hhost).symm.trans ht)
  have hkept : List.Forall₂ CoreState.KeptBy s.cores t.cores := htaken
  refine ⟨hkept.length_eq.symm, fun k c d hc hd => ?_⟩
  obtain ⟨hks, rfl⟩ := List.getElem?_eq_some_iff.mp hc
  obtain ⟨hkt, rfl⟩ := List.getElem?_eq_some_iff.mp hd
  obtain ⟨hinit, hfault⟩ : CoreState.KeptBy s.cores[k] t.cores[k] := hkept.get hks hkt
  exact ⟨hinit, hfault⟩

end Sys2Proof.Machine
end

section
/-! PROOFS. The admission check (spec/60_exceptions.md R155 to R161): when each of its tests fires, the class each one
gives, and what a word does of it. -/

namespace Sys2Proof.Machine

/-! ## When a test fires -/

/-- The bounds test of R158 over the cells of each space. -/
theorem inBounds_iff_forall_cells {cfg : Config} {i : Instr} :
    inBounds cfg i = true ↔
      (∀ a ∈ (footprint cfg.bps i).coefRead ++ (footprint cfg.bps i).coefWrite, 0 ≤ a ∧ a < (cfg.coefSize : Int)) ∧
      (∀ a ∈ (footprint cfg.bps i).pixRead ++ (footprint cfg.bps i).pixWrite, 0 ≤ a ∧ a < (cfg.pixSize : Int)) := by
  simp only [inBounds_iff, List.forall_mem_append, and_assoc]

theorem inBounds_eq_false_iff {cfg : Config} {i : Instr} :
    inBounds cfg i = false ↔
      (∃ a ∈ (footprint cfg.bps i).coefRead ++ (footprint cfg.bps i).coefWrite, a < 0 ∨ (cfg.coefSize : Int) ≤ a) ∨
      (∃ a ∈ (footprint cfg.bps i).pixRead ++ (footprint cfg.bps i).pixWrite, a < 0 ∨ (cfg.pixSize : Int) ≤ a) := by
  simp only [← Bool.not_eq_true, inBounds_iff_forall_cells, not_and_or, not_forall, not_le, not_lt, exists_prop]

/-- The coefficients that R158 requires to be zero, for every command (R94, R96). -/
theorem sparse_iff {s : State} {i : Instr} :
    s.sparse i = true ↔
      (∀ a b m, i = .transformDc a b → 1 ≤ m → m ≤ 15 → s.coefficient (a + m) = 0) ∧
      (∀ a b m, i = .transformAc3 a b → 2 ≤ m → m ≤ 15 → m ≠ 4 → s.coefficient (a + m) = 0) := by
  cases i with
  | transformDc a b =>
    rw [sparse_transformDc_iff]
    refine ⟨fun hzero => ⟨?_, fun _ _ _ => Instr.noConfusion⟩, fun ⟨hdc, _⟩ m => hdc a b m rfl⟩
    rintro _ _ m ⟨⟩
    exact hzero m
  | transformAc3 a b =>
    rw [sparse_transformAc3_iff]
    refine ⟨fun hzero => ⟨fun _ _ _ => Instr.noConfusion, ?_⟩, fun ⟨_, hac3⟩ m => hac3 a b m rfl⟩
    rintro _ _ m ⟨⟩
    exact hzero m
  | _ => simp [State.sparse]

theorem sparse_eq_false_iff {s : State} {i : Instr} :
    s.sparse i = false ↔
      (∃ a b m, i = .transformDc a b ∧ 1 ≤ m ∧ m ≤ 15 ∧ s.coefficient (a + m) ≠ 0) ∨
      (∃ a b m, i = .transformAc3 a b ∧ 2 ≤ m ∧ m ≤ 15 ∧ m ≠ 4 ∧ s.coefficient (a + m) ≠ 0) := by
  simp only [← Bool.not_eq_true, sparse_iff, not_and_or, not_forall, exists_prop, ne_eq]

/-- The four kinds of interference of R49 and R50. -/
theorem Footprint.interferes_iff {f : Footprint} {x : Access} :
    f.interferes x = true ↔
      x.space = .pix ∧ x.kind = .write ∧ (x.addr : Int) ∈ f.pixRead ++ f.pixWrite ∨
      x.space = .pix ∧ x.kind = .read ∧ (x.addr : Int) ∈ f.pixWrite ∨
      x.space = .coef ∧ x.kind = .write ∧ (x.addr : Int) ∈ f.coefRead ++ f.coefWrite ∨
      x.space = .coef ∧ x.kind = .read ∧ (x.addr : Int) ∈ f.coefWrite := by
  obtain ⟨space, addr, kind⟩ := x
  cases space <;> cases kind <;> simp [Footprint.interferes]

/-! ## The class a data command is given -/

section
variable {s : State} {i : Instr}

theorem admission_eq_notInitialized (hi : i ≠ .init) (hinit : s.initDone = false) :
    s.admission i = .notInitialized := by
  rw [State.admission, if_neg hi, if_pos hinit]

theorem admission_eq_bounds (hi : i ≠ .init) (hinit : s.initDone = true) (hb : inBounds s.cfg i = false) :
    s.admission i = .bounds := by
  simp [State.admission, hi, hinit, hb]

theorem admission_eq_sparsity (hi : i ≠ .init) (hinit : s.initDone = true) (hb : inBounds s.cfg i = true)
    (hs : s.sparse i = false) : s.admission i = .sparsity := by
  simp [State.admission, hi, hinit, hb, hs]

theorem admission_eq_race (hi : i ≠ .init) (hinit : s.initDone = true) (hb : inBounds s.cfg i = true)
    (hs : s.sparse i = true) (hr : s.raced i = true) : s.admission i = .race := by
  simp [State.admission, hi, hinit, hb, hs, hr]

theorem exec_of_fault {c : FaultClass} (hf : s.fault = .none) (ha : s.admission i = c) (hc : c ≠ .none) :
    exec i s = .next { s with fault := c } := by
  subst ha
  rw [exec_eq_carryOut, carryOut_of_fault _ _ _ hf hc]

end

/-! ## What a word does -/

/-- Settles O14: a word on a set latch is ignored, and reset clears the current core's latch with the others. -/
theorem latchedFaultStopsEveryCommand : Obligations.LatchedFaultStopsEveryCommand := by
  unfold Obligations.LatchedFaultStopsEveryCommand
  refine ⟨fun s w hf => ?_, fun s pix coef rest _ hhost => ?_⟩
  · rcases runWord_cases s w with ⟨-, he⟩ | ⟨_, hclear, -⟩ | ⟨_, -, hclear, -⟩
    · exact he
    · exact absurd hclear hf
    · exact absurd hclear hf
  · exact ⟨_, step_of_host_cons hhost, applyReset_fault _ pix coef⟩

/-- Settles O13: a latched word and an admitted command keep the latch, so what changes it is a fault taken on a clear
latch. -/
theorem faultingCommandChangesOnlyTheLatch : Obligations.FaultingCommandChangesOnlyTheLatch := by
  unfold Obligations.FaultingCommandChangesOnlyTheLatch
  intro s t w ht hchanged
  rcases runWord_cases s w with ⟨-, he⟩ | ⟨c, hf, -, he, -⟩ | ⟨i, -, -, -, he⟩ <;>
    obtain rfl := Host.Outcome.next.inj (he.symm.trans ht)
  · exact absurd rfl hchanged
  · exact ⟨hf, rfl⟩
  · exact absurd (afterCommand_fault s i) hchanged

/-- Settles O18: the access is one of the four kinds that the last test looks for. -/
theorem interferenceIsRace : Obligations.InterferenceIsRace := by
  unfold Obligations.InterferenceIsRace
  intro s i x hf hinit hb hs hx hi hkind
  have hr : s.raced i = true := List.any_eq_true.mpr ⟨x, hx, Footprint.interferes_iff.mpr hkind⟩
  exact exec_of_fault hf (admission_eq_race hi hinit hb hs hr) FaultClass.noConfusion

/-- Settles O11: each clause is the test that fires first. -/
theorem faultPriority : Obligations.FaultPriority := by
  unfold Obligations.FaultPriority
  refine fun s w hf => ⟨fun hw => ?_, fun hw => ?_, fun i hw hi => ?_⟩
  · rw [runWord_of_not_command hw, raise_of_clear _ _ hf]
  · exact ⟨s.setInitDone, by rw [runWord_of_command hw, exec_init_of_clear hf], hf⟩
  rw [runWord_of_command hw]
  refine ⟨fun hinit => ?_, fun hinit hout => ?_, fun hinit hcoef hpix => ?_⟩
  · exact exec_of_fault hf (admission_eq_notInitialized hi hinit) FaultClass.noConfusion
  · exact exec_of_fault hf (admission_eq_bounds hi hinit (inBounds_eq_false_iff.mpr hout)) FaultClass.noConfusion
  have hb : inBounds s.cfg i = true := inBounds_iff_forall_cells.mpr ⟨hcoef, hpix⟩
  refine ⟨fun hne => ?_, fun hdc hac3 hidle => ?_⟩
  · exact exec_of_fault hf (admission_eq_sparsity hi hinit hb (sparse_eq_false_iff.mpr hne)) FaultClass.noConfusion
  · have hs : s.sparse i = true := sparse_iff.mpr ⟨hdc, hac3⟩
    have hr : s.raced i = false := by rw [State.raced, hidle, List.any_nil]
    exact ⟨_, exec_of_admitted hf ((admission_eq_none s i).mpr (.inr ⟨hinit, hb, hs, hr⟩)), hf⟩

/-! ## What the check reads of the memories -/

/-- The admission check without the sparsity test, the only one that reads a memory. -/
def State.admissionWithoutSparsity (s : State) (i : Instr) : FaultClass :=
  if i = .init then .none
  else if s.initDone = false then .notInitialized
  else if inBounds s.cfg i = false then .bounds
  else if s.raced i then .race
  else .none

theorem admission_eq_withoutSparsity {s : State} {i : Instr} (h : s.admission i ≠ .sparsity) :
    s.admission i = s.admissionWithoutSparsity i := by
  unfold State.admission State.admissionWithoutSparsity at *
  split_ifs at h ⊢ <;> trivial

/-- Settles O15: an admitted command keeps the clear latch, and the sparsity test alone reads a memory. -/
theorem admittedCommandCompletes : Obligations.AdmittedCommandCompletes := by
  unfold Obligations.AdmittedCommandCompletes
  refine ⟨fun s i hf ha => ⟨_, exec_of_admitted hf ha, hf⟩, fun s i pix coef h h' => ?_⟩
  rw [admission_eq_withoutSparsity h, admission_eq_withoutSparsity h']
  rfl

end Sys2Proof.Machine
end

section
/-! PROOFS. The closed form of each command's bounds test (spec/60_exceptions.md R158), from the closed form of its
footprint's shape. -/

namespace Sys2Proof.Machine

/-- The bounds test looks at the configuration alone, so the closed form of a transform holds of every configuration. -/
theorem inBounds_transform_iff_of_config {c : Config} {i : Instr} {blocks a b : Nat}
    (hfoot : footprint c.bps i = transformFootprint c.bps blocks a b) (hblocks : 0 < blocks) :
    inBounds c i = true ↔
      a + (16 * blocks - 1) < c.coefSize ∧ b + 3 * c.bps + (4 * blocks - 1) < c.pixSize :=
  inBounds_transform_iff (s := State.resetOf c [] []) hfoot hblocks

theorem inBounds_transformWht_iff {c : Config} {a b : Nat} :
    inBounds c (.transformWht a b) = true ↔ a + 15 < c.coefSize ∧ b + 240 < c.coefSize := by
  simp only [inBounds, footprint, Bool.and_eq_true, inSpace_nil, and_true, inSpace_slots_iff,
    inSpace_run_iff (show 0 < 16 by decide)]

theorem inBounds_simpleVfilter16_iff {c : Config} {b t : Nat} :
    inBounds c (.simpleVfilter16 b t) = true ↔ 2 * c.bps ≤ b ∧ b + c.bps + 15 < c.pixSize := by
  rw [inBounds_edge_iff rfl]
  omega

theorem inBounds_simpleVfilter16i_iff {c : Config} {b t : Nat} :
    inBounds c (.simpleVfilter16i b t) = true ↔ b + 13 * c.bps + 15 < c.pixSize := by
  rw [inBounds_inner_iff rfl]
  omega

/-- Settles O12: a command's last cell bounds its footprint above, and a single edge's first tap bounds it below. -/
theorem boundsTestIsClosedForm : Obligations.BoundsTestIsClosedForm := by
  unfold Obligations.BoundsTestIsClosedForm
  exact fun c a b t => ⟨rfl,
    inBounds_transform_iff_of_config (blocks := 1) rfl one_pos,
    inBounds_transform_iff_of_config (blocks := 2) rfl two_pos,
    inBounds_transform_iff_of_config (blocks := 1) rfl one_pos,
    inBounds_transform_iff_of_config (blocks := 1) rfl one_pos,
    inBounds_transformWht_iff,
    inBounds_simpleVfilter16_iff,
    inBounds_edge_iff (ss := 1) rfl,
    inBounds_simpleVfilter16i_iff,
    inBounds_inner_iff (ss := 1) rfl⟩

end Sys2Proof.Machine
end

section
/-! PROOFS. What `TRANSFORM_WHT` does (spec/42_inverse_wht.md sections 1 and 2, R116). -/

namespace Sys2Proof.Machine

/-- The two passes together: the matrix sum of section 1 over all 16 inputs. -/
theorem get_whtSum_eq_double_sum (x : Block) {i j : Nat} (hi : i < 4) (hj : j < 4) :
    (whtSum x).get i j = ∑ r ∈ Finset.range 4, ∑ c ∈ Finset.range 4,
      hadamardMatrix i r * hadamardMatrix j c * x.get r c := by
  rw [get_whtSum x hi]
  refine Finset.sum_congr rfl fun r _ => ?_
  rw [get_hadamard _ hj, Finset.mul_sum]
  exact Finset.sum_congr rfl fun c _ => (mul_assoc _ _ _).symm

/-- The matrix sum over a block of coefficients (R85). -/
theorem get_whtSum_coefBlock (s : State) (a : Nat) {i j : Nat} (hi : i < 4) (hj : j < 4) :
    (whtSum (s.coefBlock a)).get i j = ∑ r ∈ Finset.range 4, ∑ c ∈ Finset.range 4,
      hadamardMatrix i r * hadamardMatrix j c * s.coefficient (a + (4 * r + c)) := by
  rw [get_whtSum_eq_double_sum _ hi hj]
  refine Finset.sum_congr rfl fun r hr => Finset.sum_congr rfl fun c hc => ?_
  rw [get_coefBlock s a (Finset.mem_range.mp hr) (Finset.mem_range.mp hc)]

/-- Settles O36: the sums are over the coefficients before the command, and each slot stores one of them, rounded. -/
theorem transformWhtContract : Obligations.TransformWhtContract := by
  unfold Obligations.TransformWhtContract
  intro s a b hcoef hf hrace
  obtain ⟨huninit, hbounds, -, hadmitted⟩ := exec_outcome s (.transformWht a b) Instr.noConfusion hf hrace
  refine ⟨fun hi ha hb => ?_, huninit,
    fun hi hout => hbounds hi (Bool.eq_false_iff.mpr (mt inBounds_transformWht_iff.mp hout))⟩
  have hexec : exec (.transformWht a b) s = .next (s.storeCoef (whtCells b (s.coefBlock a))) := by
    rw [hadmitted hi (inBounds_transformWht_iff.mpr ⟨ha, hb⟩) rfl,
      afterCommand_eq_storeCoef _ _ Instr.noConfusion rfl, coefCells]
  refine ⟨_, hexec, storeCoef_eq .., fun i hi j hj => ?_, fun x hx => coefficient_store_wht_other s b x _ hx⟩
  rw [coefficient_store_wht s b _ hcoef hi hj, get_whtSum_coefBlock s a hi hj, roundWht]

end Sys2Proof.Machine
end

section
/-! PROOFS. What a step leaves alone: every piece of state with no action left (spec/60_exceptions.md R168,
spec/70_reset_and_hazards.md R189), and with a command the cores it is not presented to (spec/60_exceptions.md R170). -/

namespace Sys2Proof.Machine

/-- Settles O7: an idle step has no action to perform. -/
theorem idleCoreHoldsState : Obligations.IdleCoreHoldsState := by
  unfold Obligations.IdleCoreHoldsState
  intro s hhost
  rw [step, hhost]

theorem runWord_lower_higher {s t : State} {w : Word} (ht : s.runWord w = .next t) :
    t.lower = s.lower ∧ t.higher = s.higher := by
  rcases runWord_cases s w with ⟨-, he⟩ | ⟨c, -, -, he, -⟩ | ⟨i, -, -, -, he⟩ <;>
    obtain rfl := Host.Outcome.next.inj (he.symm.trans ht)
  · exact ⟨rfl, rfl⟩
  · exact ⟨rfl, rfl⟩
  · exact ⟨afterCommand_lower s i, afterCommand_higher s i⟩

theorem runWord_cores_getElem_of_ne_current {s t : State} {w : Word} (ht : s.runWord w = .next t) {j : Nat}
    (hj : j ≠ s.current) : t.cores[j]? = s.cores[j]? := by
  obtain ⟨hlower, hhigher⟩ := runWord_lower_higher ht
  rw [cores_getElem_of_same_others hlower hhigher, if_neg hj]

theorem perform_command_cores_getElem_of_ne {s t : State} {k : Nat} {w : Word} {during : List Access}
    (ht : s.perform (.command k w during) = .next t) {j : Nat} (hj : j ≠ k) : t.cores[j]? = s.cores[j]? := by
  rw [State.perform] at ht
  split at ht
  · cases ht
  case h_2 u hu =>
    obtain ⟨hcores, hcurrent, -⟩ := select_eq_some hu
    rw [← hcores]
    exact runWord_cores_getElem_of_ne_current ht (hcurrent ▸ hj)

/-- Settles O17: the core presented to is current while its word runs, and a word leaves the cores beside it. -/
theorem commandLeavesOtherCoresAlone : Obligations.CommandLeavesOtherCoresAlone := by
  unfold Obligations.CommandLeavesOtherCoresAlone
  intro s t k w during rest hhost ht j hj
  exact perform_command_cores_getElem_of_ne (s := { s with host := rest }) ((step_of_host_cons hhost).symm.trans ht) hj

end Sys2Proof.Machine
end

section
/-! PROOFS. What the host's own actions leave: a write changes one cell of one memory (spec/70_reset_and_hazards.md
R179), and reset makes every core the reset core (R175). -/

namespace Sys2Proof.Machine

/-! ## Host writes -/

theorem step_of_writePix {s : State} {a : Nat} {v : Sample} {rest : List HostAction}
    (hhost : s.host = .writePix a v :: rest) (ha : a < s.cfg.pixSize) :
    step s = .next (State.storePix { s with host := rest } [(a, v)]) := by
  rw [step_of_host_cons hhost, State.perform, if_pos ha]

theorem step_of_writeCoef {s : State} {a : Nat} {v : Coef} {rest : List HostAction}
    (hhost : s.host = .writeCoef a v :: rest) (ha : a < s.cfg.coefSize) :
    step s = .next (State.storeCoef { s with host := rest } [(a, v)]) := by
  rw [step_of_host_cons hhost, State.perform, if_pos ha]

theorem pixel_storePix_singleton_same {s : State} (hpix : s.pix.wf) (a : Nat) (v : Sample) :
    (s.storePix [(a, v)]).pixel a = v :=
  Mem.read_write_same s.pix a v hpix

theorem coefficient_storeCoef_singleton_same {s : State} (hcoef : s.coef.wf) (a : Nat) (v : Coef) :
    (s.storeCoef [(a, v)]).coefficient a = v.toInt :=
  congrArg BitVec.toInt (Mem.read_write_same s.coef a v hcoef)

/-- Settles O8: the action stores one cell in the state from whose list it has been taken. -/
theorem hostWritesOneCell : Obligations.HostWritesOneCell := by
  unfold Obligations.HostWritesOneCell
  refine ⟨fun s a v rest hpix hhost ha => ?_, fun s a v rest hcoef hhost ha => ?_⟩
  · refine ⟨_, step_of_writePix hhost ha, rfl, pixel_storePix_singleton_same hpix a v, fun x hx => ?_⟩
    exact pixel_storePix_other _ _ x (List.forall_mem_singleton.mpr hx.symm)
  · refine ⟨_, step_of_writeCoef hhost ha, rfl, coefficient_storeCoef_singleton_same hcoef a v, fun x hx => ?_⟩
    exact coefficient_storeCoef_other _ _ x (List.forall_mem_singleton.mpr hx.symm)

/-! ## Reset -/

/-- The current core is reset as those beside it are. -/
theorem applyReset_cores (s : State) (pix : Mem 8) (coef : Mem 16) :
    (s.applyReset pix coef).cores = s.cores.map fun _ => CoreState.reset := by
  rw [State.cores, State.cores, List.map_append, List.map_cons]
  rfl

/-- Settles O9: every core of the list is the reset core, and the list is as long as before. -/
theorem resetClearsEveryCore : Obligations.ResetClearsEveryCore := by
  unfold Obligations.ResetClearsEveryCore
  intro s pix coef rest hhost
  have hcores := applyReset_cores { s with host := rest } pix coef
  refine ⟨_, step_of_host_cons hhost, ?_, ?_, rfl, rfl, rfl⟩
  · rw [hcores, List.length_map]
    rfl
  · rw [hcores]
    exact List.forall_mem_map.mpr fun _ _ => ⟨rfl, rfl⟩

end Sys2Proof.Machine
end

section
/-! PROOFS. The order of the two passes of the inverse Walsh-Hadamard transform (spec/42_inverse_wht.md R112). -/

namespace Sys2Proof.Machine

/-- Columns first is rows first on the transposed block, transposed back. -/
theorem hadamardColumnsFirst_eq_transpose (x : Block) :
    (x.onColumns hadamard).onRows hadamard = (whtSum x.transpose).transpose := rfl

/-- `S` of the transposed block adds the same 16 products, the columns of the block outermost. -/
theorem transpose_whtSum_transpose (x : Block) : (whtSum x.transpose).transpose = whtSum x := by
  refine Block.ext_of_get fun i hi j hj => ?_
  rw [Block.get_transpose, get_whtSum_eq_double_sum _ hj hi, get_whtSum_eq_double_sum _ hi hj, Finset.sum_comm]
  refine Finset.sum_congr rfl fun r _ => Finset.sum_congr rfl fun c _ => ?_
  rw [Block.get_transpose, mul_comm (hadamardMatrix j c)]

/-- Settles O37: transposing exchanges the two passes and the two sums. -/
theorem whtSumFormsAndRange : Obligations.WhtSumFormsAndRange := by
  unfold Obligations.WhtSumFormsAndRange
  refine ⟨fun x i hi j hj => get_whtSum_eq_double_sum x hi hj, fun x => ?_, fun x hx i hi j hj => ?_⟩
  · rw [hadamardColumnsFirst_eq_transpose, transpose_whtSum_transpose, whtSum]
  · obtain ⟨hlo, hhi⟩ := get_whtSum_bounds hx hi hj
    exact abs_le.mpr ⟨hlo, hhi.trans (by decide)⟩

end Sys2Proof.Machine
end
